-- ==== Sys2Proof/Word.lean ====
section
/-! DEFINITION. The value kinds of 00_scope.md R6 to R9 and R13: bytes, bus words, bit strings and texts. -/

namespace Sys2Proof

/-- A byte, which is also a character (R9). -/
abbrev Byte := BitVec 8

/-- A 32-bit bus word; bit 0 is its least significant bit (R6, R7). -/
abbrev Word := BitVec 32

/-- A BitString: a finite list of bits, indexed from its first bit (R8). -/
abbrev BitString := List Bool

/-- A text: a finite list of characters, one byte each (R9). -/
abbrev Text := List Byte

end Sys2Proof
end

