-- ==== Sys2Proof/Config.lean ====
section
/-! DEFINITION. The implementation parameters of 00_scope.md R4 and the free values of
93_implementation_defined.md (U3, U4, U5, U7). A free value is an opaque constant: nothing in Lean can
compute it, so every theorem holds whatever it is. -/

namespace Sys2Proof

/-- The parameters of R4 that a model takes as arguments: the capacities and the platform address of the
register window. They stand in `State`, so a statement about every state covers every choice (log entry 6). -/
structure Params where
  /-- N_MAX: the capacity of TEXT_IN in bytes. -/
  nMax : Nat
  /-- K_MAX: the capacity of KEY in bytes. -/
  kMax : Nat
  /-- R_MAX: the largest accepted round count. -/
  rMax : Nat
  /-- BASE: the bus address of offset 0 of the register window. -/
  base : Nat
deriving DecidableEq, Repr

/-- The default capacities of R4. DESIGN CHOICE (log entry 6): BASE, which R4 leaves OPEN, is 0 here. -/
def Params.default : Params := { nMax := 32, kMax := 32, rMax := 16, base := 0 }

/-- Free value (R47, U5, log entry 3): what the byte at a window offset holds after a reset, by the index
of that reset's draw. -/
opaque Config.resetByte : Nat → Nat → Byte

/-- Free value (R103, R258, U3, log entry 2): LATENCY of one accepted command, counted in host events. -/
opaque Config.latency : Nat → Nat

/-- Free value (R61, U4, log entry 4): the data of one read that BUSY leaves unspecified. -/
opaque Config.busyRead : Nat → Word

/-- Free value (R251, U7, log entry 5): whether a transaction in flight at a reset took effect before it. -/
opaque Config.inFlightTakesEffect : Nat → Bool

/-- Free value (R251, U7, log entry 5): whether a transaction in flight at a reset is answered OKAY. -/
opaque Config.inFlightOkay : Nat → Bool

/-- Free value (R251, U7, log entry 5): the data of a read in flight at a reset. -/
opaque Config.inFlightData : Nat → Word

end Sys2Proof
end

