-- ==== Sys2Proof/Machine/Layout.lean ====
section
/-! DEFINITION. The address map of the register window (20_memory.md R54, R55, R57), as byte offsets, and the
packing of bytes into bus words (R53). -/

namespace Sys2Proof.Machine

/-- The bytes the register window spans (R6). -/
def windowBytes : Nat := 0x100000

/-- The only legal shape of a transaction inside the window: four bytes at an aligned offset (R52). -/
def legalAccess (off size : Nat) : Bool := decide (size = 4) && decide (off % 4 = 0)

/-- OUT_MAX of 00_scope.md R4: the capacity of OUT in bytes. -/
def outMax (p : Params) : Nat := max p.nMax (p.kMax + 3)

/-- TRACE_RECORDS of 00_scope.md R4: the number of trace record slots. -/
def traceRecords (p : Params) : Nat := p.rMax + 3

def offId : Nat := 0x00000
def offParams : Nat := 0x00004
def offCmd : Nat := 0x00008
def offStatus : Nat := 0x0000C
def offRounds : Nat := 0x00010
def offTextLen : Nat := 0x00014
def offKeyLen : Nat := 0x00018
def offBitLen : Nat := 0x0001C
def offOutLen : Nat := 0x00020
def offOutBits : Nat := 0x00024
def offTraceCount : Nat := 0x00028

/-- Start of the TEXT_IN window. -/
def textInBase : Nat := 0x00100

/-- Start of the KEY window. -/
def keyBase : Nat := 0x00200

/-- Start of the OUT window. -/
def outBase : Nat := 0x00300

/-- Start of the TRACE region. -/
def traceBase : Nat := 0x10000

/-- The bytes of one trace slot (R57). -/
def slotBytes : Nat := 0x800

/-- Start of trace slot `j` (R57). -/
def slotBase (j : Nat) : Nat := traceBase + slotBytes * j

/-- Offset `a` is an implemented byte of TEXT_IN (R55). -/
def inTextIn (p : Params) (a : Nat) : Bool := decide (textInBase ≤ a) && decide (a < textInBase + p.nMax)

/-- Offset `a` is an implemented byte of KEY (R55). -/
def inKey (p : Params) (a : Nat) : Bool := decide (keyBase ≤ a) && decide (a < keyBase + p.kMax)

/-- Offset `a` is an implemented byte of OUT (R55). -/
def inOut (p : Params) (a : Nat) : Bool := decide (outBase ≤ a) && decide (a < outBase + outMax p)

/-- Offset `a` is a byte of TRACE (R57). -/
def inTrace (p : Params) (a : Nat) : Bool :=
  decide (traceBase ≤ a) && decide (a < traceBase + slotBytes * traceRecords p)

/-- The bytes a host write can store to: TEXT_IN and KEY (R59). -/
def inInputs (p : Params) (a : Nat) : Bool := inTextIn p a || inKey p a

/-- The bytes a completion writes: OUT and TRACE (40_command_lifecycle.md R106). -/
def inOutputs (p : Params) (a : Nat) : Bool := inOut p a || inTrace p a

/-- The implemented bytes of the four buffers. Every other offset of the window holds a register or is
reserved or unimplemented (R54 to R56). -/
def implemented (p : Params) (a : Nat) : Bool := inInputs p a || inOutputs p a

/-- The offset inside the register window that a platform address names; none outside the window, whose
addresses the block does not decode (R50). -/
def windowOffset (p : Params) (addr : Nat) : Option Nat :=
  if p.base ≤ addr ∧ addr < p.base + windowBytes then some (addr - p.base) else none

/-- The bus word of four consecutive bytes, the first in bits [7:0] (R53). -/
def wordOfBytes (b0 b1 b2 b3 : Byte) : Word := b3 ++ b2 ++ b1 ++ b0

/-- Byte `k` of a bus word: bits [8k+7 : 8k] (R53). -/
def byteOfWord (v : Word) (k : Nat) : Byte := v.extractLsb' (8 * k) 8

/-- The two bytes of a 16-bit number, low byte first (R53, R58). -/
def halfwordBytes (n : Nat) : Text := [BitVec.ofNat 8 n, BitVec.ofNat 8 (n / 256)]

end Sys2Proof.Machine
end

