-- ==== Sys2Proof/Machine/Memory.lean ====
section
/-! DEFINITION. The four buffers TEXT_IN, KEY, OUT and TRACE (10_state.md R39 to R42) as one list of (window
offset, byte) pairs in a canonical form, with what an unlisted offset reads as (R47, log entries 3 and 7). -/

namespace Sys2Proof.Machine

/-- The buffers' contents. `cells` lists bytes by window offset. `fresh` lists the bytes of TEXT_IN and KEY,
and `outFresh` says whether the bytes of OUT and TRACE, hold what the last reset left there: the free value
drawn at that reset, whose index is `epoch`. -/
structure Memory where
  cells : List Host.Cell
  fresh : List Nat
  outFresh : Bool
  epoch : Nat
deriving DecidableEq, Repr

/-- The byte a list of cells holds at an offset. -/
def lookup : List Host.Cell → Nat → Option Byte
  | [], _ => none
  | (b, v) :: t, a => if b = a then some v else lookup t a

/-- The byte at `a` has not been written since the last reset. -/
def Memory.isFresh (m : Memory) (a : Nat) : Bool :=
  decide (a ∈ m.fresh) || (m.outFresh && decide (outBase ≤ a))

/-- What an unlisted offset reads as: a byte not written since the last reset holds that reset's draw (R47),
and every other byte is 0. -/
def Memory.unlisted (m : Memory) (a : Nat) : Byte :=
  if m.isFresh a then Config.resetByte m.epoch a else 0#8

/-- The byte held at an offset. -/
def Memory.read (m : Memory) (a : Nat) : Byte := (lookup m.cells a).getD (m.unlisted a)

/-- The cells that hold byte `v` at `a`: none for 0, which an unlisted offset reads as. -/
def cellOf (a : Nat) (v : Byte) : List Host.Cell := if v = 0#8 then [] else [(a, v)]

/-- The cells that hold the bytes `vs` from `a` on. -/
def cellsAt : Nat → Text → List Host.Cell
  | _, [] => []
  | a, v :: vs => cellOf a v ++ cellsAt (a + 1) vs

/-- Store one byte of TEXT_IN or KEY (20_memory.md R59). -/
def Memory.write (m : Memory) (a : Nat) (v : Byte) : Memory :=
  { m with
    cells := m.cells.filter (fun c => decide (c.1 < a)) ++ cellOf a v ++
      m.cells.filter (fun c => decide (a < c.1))
    fresh := m.fresh.filter (fun b => decide (b ≠ a)) }

/-- Replace the whole of OUT and TRACE (40_command_lifecycle.md R106). -/
def Memory.replaceOutputs (m : Memory) (outputs : List Host.Cell) : Memory :=
  { m with
    cells := m.cells.filter (fun c => decide (c.1 < outBase)) ++ outputs
    fresh := m.fresh.filter (fun b => decide (b < outBase))
    outFresh := false }

/-- The `n` bytes from `a` on. -/
def Memory.readRange (m : Memory) (a n : Nat) : Text := (List.range n).map (fun k => m.read (a + k))

/-- The buffers right after a reset whose draw has index `e`: nothing is listed and every implemented byte
holds its draw (R47). -/
def Memory.atReset (p : Params) (e : Nat) : Memory :=
  { cells := []
    fresh := List.range' textInBase p.nMax ++ List.range' keyBase p.kMax
    outFresh := true
    epoch := e }

/-- The canonical form: offsets strictly rising, each one an implemented byte, no listed byte equal to what
its offset would read as unlisted, and only bytes of TEXT_IN and KEY, strictly rising, marked fresh. -/
def Memory.wf (p : Params) (m : Memory) : Bool :=
  decide (m.cells.Pairwise (fun c d => c.1 < d.1)) &&
    m.cells.all (fun c => implemented p c.1 && !m.isFresh c.1 && decide (c.2 ≠ 0#8)) &&
    decide (m.fresh.Pairwise (fun a b => a < b)) && m.fresh.all (fun a => inInputs p a)

end Sys2Proof.Machine
end

