-- ==== Sys2Proof/Syntax.lean ====
section
/-! DEFINITION. The commands of spec/opcode_table.json (30_encoding.md R81), one constructor per row, and
what the host can do to the block: bus transactions (20_memory.md R50), the poll loop (30_encoding.md R86)
and reset (70_reset_and_hazards.md R250). -/

namespace Sys2Proof

/-- A command. Bits [31:4] of a CMD word are ignored and no command has an operand field (R80), so no
constructor has an argument. -/
inductive Instr where
  | nop
  | encode
  | decode
  | derive
  | mix
  | encrypt
  | decrypt
  | reserved7
  | reserved8
  | reserved9
  | reservedA
  | reservedB
  | reservedC
  | reservedD
  | reservedE
  | reservedF
deriving DecidableEq, Repr

/-- A host transaction, at a platform bus address and with a size in bytes (R50). Only `size = 4` at an
aligned offset is legal (R52); every other one can be issued and is answered ERROR. -/
inductive Transaction where
  | memRead (addr size : Nat)
  | memWrite (addr size : Nat) (v : Word)
deriving DecidableEq, Repr

/-- The platform address a transaction names. -/
def Transaction.addr : Transaction → Nat
  | .memRead a _ => a
  | .memWrite a _ _ => a

/-- A transaction's size in bytes. -/
def Transaction.size : Transaction → Nat
  | .memRead _ n => n
  | .memWrite _ n _ => n

/-- One event of the host agent: a transaction; a poll, which repeats a 4-byte read until the masked data
equals the value (R86); or a reset, with the transaction that was in flight when it came, if any (R250,
R251). -/
inductive HostEvent where
  | access (t : Transaction)
  | poll (addr : Nat) (mask value : Word)
  | reset (inFlight : Option Transaction)
deriving DecidableEq, Repr

/-- A statement of the host program notation: the primitives of R86 and the pseudo-statements of R87. `rd OFF` is
`.rd OFF none`, and `rd OFF -> V`, which also states the data the rules give, is `.rd OFF (some V)`. -/
inductive HostStatement where
  | wr (off : Nat) (v : Word)
  | rd (off : Nat) (stated : Option Word)
  | poll (off : Nat) (mask value : Word)
  | cmd (i : Instr)
  | wait
  | loadtext (t : Text)
  | loadkey (t : Text)
  | loadbits (bytes : Text) (n : Nat)
  | rounds (n : Nat)
  | run (i : Instr)
deriving DecidableEq, Repr

end Sys2Proof
end

