-- ==== Sys2Proof/Machine/State.lean ====
section
/-! DEFINITION. The state of 10_state.md R20 as plain data, the model's own fields beside it, the outcomes'
reasons, and the state right after reset (R46, R47). -/

namespace Sys2Proof.Machine

/-- The error codes of 60_exceptions.md R220. -/
inductive ErrorCode where
  | invalidKey
  | invalidRounds
  | encoding
  | decoding
  | invalidLength
  | capacity
  | illegalCommand
deriving DecidableEq, Repr

/-- The two bus responses (20_memory.md R51). -/
inductive BusStatus where
  | okay
  | error
deriving DecidableEq, Repr

/-- What one transaction is answered: a response, and for a read a data word (R50, R51). -/
inductive Response where
  | read (status : BusStatus) (data : Word)
  | write (status : BusStatus)
deriving DecidableEq, Repr

/-- The operands latched at acceptance (R43): the OPCODE, the four length registers and both input buffers. -/
structure Latched where
  op : BitVec 4
  rounds : BitVec 8
  textLen : BitVec 8
  keyLen : BitVec 8
  bitLen : BitVec 16
  textIn : Text
  key : Text
deriving DecidableEq, Repr

/-- The block's state (R20), and after it the model's own fields (log entries 1, 2 and 11): the host events
still to come, oldest first; the responses given so far, newest first; the host events still ordered before
the completion step; and the index of the next free value. -/
structure State where
  params : Params
  busy : Bool
  done : Bool
  err : Bool
  errcode : BitVec 4
  lastOp : BitVec 4
  rounds : BitVec 8
  textLen : BitVec 8
  keyLen : BitVec 8
  bitLen : BitVec 16
  outLen : BitVec 8
  outBits : BitVec 16
  traceCount : BitVec 16
  mem : Memory
  latched : Option Latched
  host : List HostEvent
  responses : List Response
  wait : Nat
  draws : Nat
deriving DecidableEq, Repr

/-- Why a step can stop with a fault: never. The spec gives every event an effect (93_implementation_defined.md:
`stuck` is used nowhere), so this type has no constructor. -/
inductive Fault : Type
deriving DecidableEq, Repr

/-- Why a step can be refused. -/
inductive Refusal where
  /-- An instruction that has no meaning yet. Raised by no arm of this model; safe. -/
  | notModelled (mnemonic : String)
deriving DecidableEq, Repr

/-- The block right after reset (R46, R47, R250), with the default parameters. DESIGN CHOICE (log entry 11): no
host event is pending, no response has been given, and the first draw went to this reset. -/
def State.reset : State :=
  { params := Params.default
    busy := false
    done := false
    err := false
    errcode := 0
    lastOp := 0
    rounds := 0
    textLen := 0
    keyLen := 0
    bitLen := 0
    outLen := 0
    outBits := 0
    traceCount := 0
    mem := Memory.atReset Params.default 0
    latched := none
    host := []
    responses := []
    wait := 0
    draws := 1 }

end Sys2Proof.Machine
end

