-- ==== Sys2Proof/Machine/Flags.lean ====
section
/-! DEFINITION. The words of STATUS, ID and PARAMS (10_state.md R23, R24, R26), the error codes
(60_exceptions.md R220), and the status changes of acceptance, success and failure (R27 to R31). -/

namespace Sys2Proof.Machine

/-- The ERRCODE value of an error (R220). -/
def ErrorCode.code : ErrorCode → BitVec 4
  | .invalidKey => 1
  | .invalidRounds => 2
  | .encoding => 3
  | .decoding => 4
  | .invalidLength => 5
  | .capacity => 6
  | .illegalCommand => 7

/-- The constant the ID register reads (R23). -/
def idValue : Word := 0x46454953

/-- The PARAMS word: VERSION, R_MAX, K_MAX and N_MAX from the high byte down (R24). -/
def paramsWord (p : Params) : Word :=
  0x01#8 ++ BitVec.ofNat 8 p.rMax ++ BitVec.ofNat 8 p.kMax ++ BitVec.ofNat 8 p.nMax

/-- The STATUS word (R26). -/
def statusWord (s : State) : Word :=
  0#20 ++ s.lastOp ++ s.errcode ++ 0#1 ++ BitVec.ofBool s.err ++ BitVec.ofBool s.done ++
    BitVec.ofBool s.busy

/-- The status fields at acceptance (40_command_lifecycle.md R101). -/
def setAccepted (op : BitVec 4) (s : State) : State :=
  { s with busy := true, done := false, err := false, errcode := 0, lastOp := op }

/-- The status fields at a successful completion (R106). -/
def setDone (s : State) : State := { s with busy := false, done := true, err := false, errcode := 0 }

/-- The status fields at a failed completion (R107). -/
def setFailed (e : ErrorCode) (s : State) : State :=
  { s with busy := false, done := false, err := true, errcode := e.code }

end Sys2Proof.Machine
end

