-- ==== Sys2Proof/WellFormed.lean ====
section
/-! DEFINITION. The static checks: legal parameters (00_scope.md R4), the one legal transaction shape
(20_memory.md R52), legal host statements (30_encoding.md R86), and commands, which have nothing to check. -/

namespace Sys2Proof

open Sys2Proof.Machine

/-- Every command is well formed: it has no operand field (30_encoding.md R80). -/
def Instr.wellFormed : Instr → Bool
  | .nop | .encode | .decode | .derive | .mix | .encrypt | .decrypt => true
  | .reserved7 | .reserved8 | .reserved9 | .reservedA | .reservedB => true
  | .reservedC | .reservedD | .reservedE | .reservedF => true

/-- The legal ranges of the parameters (R4); BASE is 1 MiB aligned. -/
def Params.legal (p : Params) : Bool :=
  decide (1 ≤ p.nMax) && decide (p.nMax ≤ 255) && decide (1 ≤ p.kMax) && decide (p.kMax ≤ 252) &&
    decide (1 ≤ p.rMax) && decide (p.rMax ≤ 255) && decide (p.base % 0x100000 = 0)

/-- Every statement of a host program is a legal transaction inside the window (R86). DESIGN CHOICE (log entry 19),
where R87 sets no bound: a length or count fits the register it is written to, `loadbits` lists at most the 256 bytes
of the TEXT_IN window, and the bytes it lists hold its `n` bits, with bytes to spare allowed. -/
def HostStatement.wellFormed : HostStatement → Bool
  | .wr off _ => legalAccess off 4 && decide (off < windowBytes)
  | .rd off _ => legalAccess off 4 && decide (off < windowBytes)
  | .poll off _ _ => legalAccess off 4 && decide (off < windowBytes)
  | .cmd i => i.wellFormed
  | .wait => true
  | .loadtext t => decide (t.length ≤ 255)
  | .loadkey t => decide (t.length ≤ 255)
  | .loadbits bytes n => decide (n ≤ 8 * bytes.length) && decide (bytes.length ≤ 256)
  | .rounds n => decide (n ≤ 255)
  | .run i => i.wellFormed

end Sys2Proof
end

