-- ==== Sys2Proof/Decode.lean ====
section
/-! DEFINITION. Decoding and encoding of CMD words (30_encoding.md R80 to R84). Decoding is total: every
32-bit word decodes by its bits [3:0] alone to exactly one row of R81, so the decoder rejects no word. -/

namespace Sys2Proof

/-- The OPCODE field: bits [3:0] of a CMD word (R80). -/
def opcodeField (v : Word) : BitVec 4 := v.extractLsb' 0 4

/-- The opcode map of R81. The last row is 0xF: the field has four bits, so no other value is left. -/
def decodeOpcode (op : BitVec 4) : Instr :=
  match op.toNat with
  | 0x0 => .nop
  | 0x1 => .encode
  | 0x2 => .decode
  | 0x3 => .derive
  | 0x4 => .mix
  | 0x5 => .encrypt
  | 0x6 => .decrypt
  | 0x7 => .reserved7
  | 0x8 => .reserved8
  | 0x9 => .reserved9
  | 0xA => .reservedA
  | 0xB => .reservedB
  | 0xC => .reservedC
  | 0xD => .reservedD
  | 0xE => .reservedE
  | _ => .reservedF

/-- The command a CMD word selects: by OPCODE alone, bits [31:4] ignored (R80, R82). -/
def decode (v : Word) : Instr := decodeOpcode (opcodeField v)

/-- The OPCODE of a command (R81). -/
def opcode : Instr → BitVec 4
  | .nop => 0x0
  | .encode => 0x1
  | .decode => 0x2
  | .derive => 0x3
  | .mix => 0x4
  | .encrypt => 0x5
  | .decrypt => 0x6
  | .reserved7 => 0x7
  | .reserved8 => 0x8
  | .reserved9 => 0x9
  | .reservedA => 0xA
  | .reservedB => 0xB
  | .reservedC => 0xC
  | .reservedD => 0xD
  | .reservedE => 0xE
  | .reservedF => 0xF

/-- The CMD word of a command, with the ignored bits [31:4] zero as R80 asks of software. -/
def encode (i : Instr) : Word := (opcode i).setWidth 32

/-- The CMD word of an instruction of `nbits` bits numbered as spec/opcode_table.json numbers them: every bit
above `nbits` is zero. -/
def tableWord (nbits w : Nat) : Word := BitVec.ofNat 32 (w % 2 ^ nbits)

/-- The command read from an instruction of `nbits` bits. A command is exactly one 32-bit word (R80), so
more than 32 bits are no command. -/
def decodeTableWord (nbits w : Nat) : Option Instr :=
  if nbits ≤ 32 then some (decode (tableWord nbits w)) else none

end Sys2Proof
end

