-- ==== Sys2Proof/Machine/Operands.lean ====
section
/-! DEFINITION. Operand assembly (30_encoding.md R85), the latch (10_state.md R43) and validation
(40_command_lifecycle.md R104). -/

namespace Sys2Proof.Machine

/-- A reserved OPCODE (30_encoding.md R83). -/
def isReserved : Instr → Bool
  | .reserved7 | .reserved8 | .reserved9 | .reservedA | .reservedB => true
  | .reservedC | .reservedD | .reservedE | .reservedF => true
  | .nop | .encode | .decode | .derive | .mix | .encrypt | .decrypt => false

/-- The commands that read KEY and KEY_LEN (R85). -/
def usesKey : Instr → Bool
  | .derive | .mix | .encrypt | .decrypt => true
  | .nop | .encode | .decode => false
  | .reserved7 | .reserved8 | .reserved9 | .reservedA | .reservedB => false
  | .reservedC | .reservedD | .reservedE | .reservedF => false

/-- The commands that read ROUNDS (R85). -/
def usesRounds : Instr → Bool
  | .derive | .encrypt | .decrypt => true
  | .nop | .encode | .decode | .mix => false
  | .reserved7 | .reserved8 | .reserved9 | .reservedA | .reservedB => false
  | .reservedC | .reservedD | .reservedE | .reservedF => false

/-- The commands that read TEXT_IN as a text of TEXT_LEN characters (R85). -/
def usesText : Instr → Bool
  | .encode | .encrypt | .decrypt => true
  | .nop | .decode | .derive | .mix => false
  | .reserved7 | .reserved8 | .reserved9 | .reservedA | .reservedB => false
  | .reservedC | .reservedD | .reservedE | .reservedF => false

/-- The commands that read TEXT_IN as a BitString of BIT_LEN bits (R85). -/
def usesBits : Instr → Bool
  | .decode | .mix => true
  | .nop | .encode | .derive | .encrypt | .decrypt => false
  | .reserved7 | .reserved8 | .reserved9 | .reservedA | .reservedB => false
  | .reservedC | .reservedD | .reservedE | .reservedF => false

/-- The values latched for a command accepted in state `s` (R43, R101). -/
def latchOperands (op : BitVec 4) (s : State) : Latched :=
  { op := op
    rounds := s.rounds
    textLen := s.textLen
    keyLen := s.keyLen
    bitLen := s.bitLen
    textIn := s.mem.readRange textInBase s.params.nMax
    key := s.mem.readRange keyBase s.params.kMax }

/-- The input text: TEXT_IN[0 .. TEXT_LEN) (R85). -/
def Latched.text (l : Latched) : Text := l.textIn.take l.textLen.toNat

/-- The key text: KEY[0 .. KEY_LEN) (R85). -/
def Latched.keyText (l : Latched) : Text := l.key.take l.keyLen.toNat

/-- The first check of R104 that the operands of command `i` fail, in the order R104 fixes. -/
def validate (p : Params) (i : Instr) (l : Latched) : Option ErrorCode :=
  if isReserved i then some .illegalCommand
  else if usesKey i && decide (l.keyLen.toNat = 0) then some .invalidKey
  else if usesKey i && decide (p.kMax < l.keyLen.toNat) then some .capacity
  else if usesRounds i && decide (l.rounds.toNat = 0) then some .invalidRounds
  else if usesRounds i && decide (p.rMax < l.rounds.toNat) then some .capacity
  else if usesText i && decide (l.textLen.toNat = 0) then some .invalidLength
  else if usesText i && decide (p.nMax < l.textLen.toNat) then some .capacity
  else if usesBits i && decide (l.bitLen.toNat = 0) then some .invalidLength
  else if usesBits i && decide (8 * p.nMax < l.bitLen.toNat) then some .capacity
  else if decide (i = .decode) && decide (l.bitLen.toNat % 8 ≠ 0) then some .decoding
  else none

end Sys2Proof.Machine
end

