-- ==== Sys2Proof/Machine/BitStrings.lean ====
section
/-! DEFINITION. The functions of the bitstring_codec (41_codec.md R120 to R123) and the bitwise exclusive or of
BitStrings (00_scope.md R8). -/

namespace Sys2Proof.Machine

/-- `bits8(c)`: the eight bits of a character, most significant first (R122). -/
def bits8 (c : Byte) : BitString :=
  [c.getLsbD 7, c.getLsbD 6, c.getLsbD 5, c.getLsbD 4, c.getLsbD 3, c.getLsbD 2, c.getLsbD 1, c.getLsbD 0]

/-- `encode(t)`: eight bits per character, in character order (R122). -/
def encodeText (t : Text) : BitString := t.flatMap bits8

/-- `byte(b)` of the eight bits of `s` from position `8 k` on, a missing bit read as 0 (R121, R123). -/
def byteAt (s : BitString) (k : Nat) : Byte :=
  BitVec.ofNat 8
    ((s.getD (8 * k) false).toNat * 128 + (s.getD (8 * k + 1) false).toNat * 64 +
      (s.getD (8 * k + 2) false).toNat * 32 + (s.getD (8 * k + 3) false).toNat * 16 +
      (s.getD (8 * k + 4) false).toNat * 8 + (s.getD (8 * k + 5) false).toNat * 4 +
      (s.getD (8 * k + 6) false).toNat * 2 + (s.getD (8 * k + 7) false).toNat)

/-- `packBits(s)`: the bytes that hold a BitString, unused low bits of the last byte zero (R121). -/
def packBits (s : BitString) : Text := (List.range ((s.length + 7) / 8)).map (byteAt s)

/-- `bitsOf(B, n)`: the BitString in the first `n` bits of a byte buffer (R120). -/
def bitsOf (b : Text) (n : Nat) : BitString :=
  (List.range n).map (fun i => (b.getD (i / 8) 0#8).getLsbD (7 - i % 8))

/-- `decode(s)`: the text of a BitString, or DecodingError where the length is no multiple of 8 (R123). -/
def decodeBits (s : BitString) : Except ErrorCode Text :=
  if s.length % 8 = 0 then .ok ((List.range (s.length / 8)).map (byteAt s)) else .error .decoding

/-- `xor(s, t)`, position by position, for equal lengths (00_scope.md R8). -/
def xorBits (s t : BitString) : BitString := List.zipWith xor s t

end Sys2Proof.Machine
end

