-- ==== Sys2Proof/Machine/Trace.lean ====
section
/-! DEFINITION. Trace records and their layout in TRACE memory (20_memory.md R57, R58; 44_engine.md R188 to
R194). -/

namespace Sys2Proof.Machine

/-- The record kinds (R58). -/
inductive TraceKind where
  | conversion
  | split
  | round
  | final
deriving DecidableEq, Repr

/-- The KIND code of a record; an empty slot reads 0 (R58). -/
def TraceKind.code : TraceKind → Byte
  | .conversion => 1
  | .split => 2
  | .round => 3
  | .final => 4

/-- A trace record: the fields of R58. SUBKEY_LEN and BLOCK_BITS are the lengths of SUBKEY and BLOCK. -/
structure TraceRecord where
  kind : TraceKind
  roundNo : Nat
  keyRound : Nat
  subkey : Text
  halfBits : Nat
  f : BitString
  preL : BitString
  preR : BitString
  postL : BitString
  postR : BitString
  block : BitString
deriving DecidableEq, Repr

/-- A field of a record slot: its offset in the slot, its size and its first bytes; the rest of it is 0. -/
structure SlotField where
  offset : Nat
  size : Nat
  bytes : Text
deriving DecidableEq, Repr

/-- The layout of R58, by rising offset. -/
def recordFields (r : TraceRecord) : List SlotField :=
  [ { offset := 0x000, size := 4,
      bytes := [r.kind.code, BitVec.ofNat 8 r.roundNo, BitVec.ofNat 8 r.keyRound,
        BitVec.ofNat 8 r.subkey.length] },
    { offset := 0x004, size := 4, bytes := halfwordBytes r.halfBits ++ halfwordBytes r.block.length },
    { offset := 0x100, size := 0x100, bytes := r.subkey },
    { offset := 0x200, size := 0x80, bytes := packBits r.f },
    { offset := 0x280, size := 0x80, bytes := packBits r.preL },
    { offset := 0x300, size := 0x80, bytes := packBits r.preR },
    { offset := 0x380, size := 0x80, bytes := packBits r.postL },
    { offset := 0x400, size := 0x80, bytes := packBits r.postR },
    { offset := 0x500, size := 0x100, bytes := packBits r.block } ]

/-- The cells of a field in the slot that starts at `base`. No field runs past its size (log entry 10). -/
def fieldCells (base : Nat) (f : SlotField) : List Host.Cell :=
  cellsAt (base + f.offset) (f.bytes.take f.size)

/-- The cells of a record in the slot that starts at `base`; every byte no field sets is 0 (R194). -/
def recordCells (base : Nat) (r : TraceRecord) : List Host.Cell :=
  (recordFields r).flatMap (fieldCells base)

/-- The cells of records in the slots from slot `j` on. -/
def recordsCells : Nat → List TraceRecord → List Host.Cell
  | _, [] => []
  | j, r :: rs => recordCells (slotBase j) r ++ recordsCells (j + 1) rs

/-- The whole TRACE region: the records from slot 0 on and zero in every other slot (10_state.md R42). -/
def traceCells (p : Params) (records : List TraceRecord) : List Host.Cell :=
  recordsCells 0 (records.take (traceRecords p))

/-- The whole OUT buffer: the bytes from byte 0 on and zero in every other byte (10_state.md R41). -/
def outCells (p : Params) (bytes : Text) : List Host.Cell := cellsAt outBase (bytes.take (outMax p))

end Sys2Proof.Machine
end

