-- ==== Sys2Proof/Machine/Ops.lean ====
section
/-! DEFINITION. The named operations of the command lifecycle (40_command_lifecycle.md R100 to R107): acceptance,
successful completion, failure (the block's whole exception model, 60_exceptions.md R230), what every
command shares, and reset (70_reset_and_hazards.md R250). -/

namespace Sys2Proof.Machine

/-- A command's result: the BitString for OUT and the trace records (R106). -/
structure Result where
  bits : BitString
  records : List TraceRecord
deriving DecidableEq, Repr

/-- Acceptance of a command with this OPCODE (R101). LATENCY, the number of host events ordered before the
completion step, is a free value (log entry 2). -/
def accept (op : BitVec 4) (s : State) : State :=
  { setAccepted op s with
    latched := some (latchOperands op s)
    wait := Config.latency s.draws
    draws := s.draws + 1 }

/-- `complete_ok(s, T)` (R106). -/
def completeOk (r : Result) (s : State) : State :=
  { setDone s with
    mem := s.mem.replaceOutputs (outCells s.params (packBits r.bits) ++ traceCells s.params r.records)
    outBits := BitVec.ofNat 16 r.bits.length
    outLen := BitVec.ofNat 8 (packBits r.bits).length
    traceCount := BitVec.ofNat 16 r.records.length
    latched := none }

/-- `raise E(code)` (R107): OUT and TRACE keep their contents. -/
def raiseError (e : ErrorCode) (s : State) : State :=
  { setFailed e s with
    outBits := 0
    outLen := 0
    traceCount := 0
    latched := none }

/-- The completion step of command `i` (R103 to R105): the first failing check is raised and nothing is
computed; otherwise the result is completed. -/
def complete (i : Instr) (l : Latched) (result : Except ErrorCode Result) (s : State) : State :=
  match validate s.params i l with
  | some e => raiseError e s
  | none =>
    match result with
    | .error e => raiseError e s
    | .ok r => completeOk r s

/-- The two events of a command other than NOP (log entry 8). While no command is in progress, its CMD write
is accepted (R100, R101). While it is the command in progress, the engine agent completes it from the
latched operands (R103). While another command is in progress nothing changes (R102): the bus answers such
a write with ERROR and never gets here. -/
def runCommand (i : Instr) (result : Latched → Except ErrorCode Result) (s : State) :
    Host.Outcome State Fault Refusal :=
  if s.busy then
    match s.latched with
    | some l => if l.op = opcode i then .next (complete i l (result l) s) else .next s
    | none => .next s
  else .next (accept (opcode i) s)

/-- The result of a reserved command, which validation never lets it reach (40_command_lifecycle.md R110). -/
def noResult (_ : Latched) : Except ErrorCode Result := .error .illegalCommand

/-- The reset event (70_reset_and_hazards.md R250, R251): every register field takes its value of 10_state.md
R46, the buffers take fresh draws (R47), and no command is latched. -/
def resetBlock (s : State) : State :=
  { s with
    busy := false
    done := false
    err := false
    errcode := 0
    lastOp := 0
    rounds := 0
    textLen := 0
    keyLen := 0
    bitLen := 0
    outLen := 0
    outBits := 0
    traceCount := 0
    mem := Memory.atReset s.params s.draws
    latched := none
    wait := 0
    draws := s.draws + 1 }

/-- Record a transaction's response. -/
def respond (r : Response) (s : State) : State := { s with responses := r :: s.responses }

end Sys2Proof.Machine
end

