-- ==== Sys2Proof/Machine/Bus.lean ====
section
/-! DEFINITION. What a legal bus transaction reads and stores (20_memory.md R53 to R61), but for a CMD write,
which runs a command. -/

namespace Sys2Proof.Machine

/-- The byte a host reads at a buffer offset: 0 where no buffer byte is implemented (R55, R56). -/
def bufferByte (s : State) (a : Nat) : Byte := if implemented s.params a then s.mem.read a else 0#8

/-- The word of the register at an offset, reserved bits 0 (10_state.md R23 to R38); CMD reads 0 (R25). -/
def registerWord (s : State) (off : Nat) : Option Word :=
  if off = offId then some idValue
  else if off = offParams then some (paramsWord s.params)
  else if off = offCmd then some 0
  else if off = offStatus then some (statusWord s)
  else if off = offRounds then some (s.rounds.setWidth 32)
  else if off = offTextLen then some (s.textLen.setWidth 32)
  else if off = offKeyLen then some (s.keyLen.setWidth 32)
  else if off = offBitLen then some (s.bitLen.setWidth 32)
  else if off = offOutLen then some (s.outLen.setWidth 32)
  else if off = offOutBits then some (s.outBits.setWidth 32)
  else if off = offTraceCount then some (s.traceCount.setWidth 32)
  else none

/-- The word at an aligned offset: a register, or four buffer bytes (R53, R54). -/
def readWord (s : State) (off : Nat) : Word :=
  (registerWord s off).getD
    (wordOfBytes (bufferByte s off) (bufferByte s (off + 1)) (bufferByte s (off + 2))
      (bufferByte s (off + 3)))

/-- The registers whose reads keep their value while BUSY (R61). -/
def readableWhileBusy (off : Nat) : Bool :=
  decide (off = offId) || decide (off = offParams) || decide (off = offStatus)

/-- The data of a legal read: while BUSY every other offset reads a fresh draw (R61, log entry 4). -/
def readData (s : State) (off : Nat) : Word :=
  if s.busy && !readableWhileBusy off then Config.busyRead s.draws else readWord s off

/-- The draws a legal read leaves behind: one is used where the data is a draw. -/
def drawsAfterRead (s : State) (off : Nat) : Nat :=
  if s.busy && !readableWhileBusy off then s.draws + 1 else s.draws

/-- Store a byte of TEXT_IN or KEY; a write to any other byte is ignored (R55, R56, R60). -/
def storeByte (a : Nat) (v : Byte) (s : State) : State :=
  if inInputs s.params a then { s with mem := s.mem.write a v } else s

/-- Store the four bytes of a word from an aligned offset on (R53). -/
def storeBytes (off : Nat) (v : Word) (s : State) : State :=
  storeByte (off + 3) (byteOfWord v 3) (storeByte (off + 2) (byteOfWord v 2)
    (storeByte (off + 1) (byteOfWord v 1) (storeByte off (byteOfWord v 0) s)))

/-- A legal write other than one to CMD, while idle: an RW register keeps its defined bits, TEXT_IN and KEY
their implemented bytes, and every other write is ignored (R56, R59, R60). -/
def storeWord (off : Nat) (v : Word) (s : State) : State :=
  if off = offRounds then { s with rounds := v.extractLsb' 0 8 }
  else if off = offTextLen then { s with textLen := v.extractLsb' 0 8 }
  else if off = offKeyLen then { s with keyLen := v.extractLsb' 0 8 }
  else if off = offBitLen then { s with bitLen := v.extractLsb' 0 16 }
  else storeBytes off v s

end Sys2Proof.Machine
end

