-- ==== Sys2Proof/Machine/Codec.lean ====
section
/-! DEFINITION. The commands of the bitstring_codec: ENCODE and DECODE (41_codec.md R126, R127). -/

namespace Sys2Proof.Machine

/-- ENCODE's result (R126): the input text as a BitString, and no trace. -/
def encodeResult (l : Latched) : Except ErrorCode Result :=
  .ok { bits := encodeText l.text, records := [] }

/-- ENCODE (R126). -/
def execEncode (s : State) : Host.Outcome State Fault Refusal := runCommand .encode encodeResult s

/-- DECODE's result (R127): the first BIT_LEN bits of TEXT_IN as a text, and no trace. -/
def decodeResult (l : Latched) : Except ErrorCode Result :=
  match decodeBits (bitsOf l.textIn l.bitLen.toNat) with
  | .ok t => .ok { bits := encodeText t, records := [] }
  | .error e => .error e

/-- DECODE (R127). -/
def execDecode (s : State) : Host.Outcome State Fault Refusal := runCommand .decode decodeResult s

end Sys2Proof.Machine
end

