-- ==== Sys2Proof/Machine/Mixer.lean ====
section
/-! DEFINITION. The f_function_mixer: mix (43_mix.md R160) and MIX (R162). -/

namespace Sys2Proof.Machine

/-- `mix(x, kt)`: bit `i` is `x[i]` xor the key bit at `i mod len(keyBits)` xor `i mod 2` (R160). -/
def mixBits (x : BitString) (kt : Text) : BitString :=
  (List.range x.length).map fun i =>
    xor (xor (x.getD i false) ((encodeText kt).getD (i % (encodeText kt).length) false)) (decide (i % 2 = 1))

/-- MIX's result (R162): KEY is used as the round-key text as given, and there is no trace. -/
def mixResult (l : Latched) : Except ErrorCode Result :=
  .ok { bits := mixBits (bitsOf l.textIn l.bitLen.toNat) l.keyText, records := [] }

/-- MIX (R162). -/
def execMix (s : State) : Host.Outcome State Fault Refusal := runCommand .mix mixResult s

end Sys2Proof.Machine
end

