-- ==== Sys2Proof/Machine/RoundKey.lean ====
section
/-! DEFINITION. The round_key_scheduler: rotate, dec, derive (42_round_key.md R140 to R142) and DERIVE (R145). -/

namespace Sys2Proof.Machine

/-- `rotate(k, a)`: the first `a` characters move to the end (R140). -/
def rotate (k : Text) (a : Nat) : Text := k.drop a ++ k.take a

/-- The digits of `n` before those already collected in `acc`, with fuel for one digit a unit. -/
def decimalFrom : Nat → Nat → Text → Text
  | 0, _, acc => acc
  | fuel + 1, n, acc =>
    if n / 10 = 0 then BitVec.ofNat 8 (0x30 + n % 10) :: acc
    else decimalFrom fuel (n / 10) (BitVec.ofNat 8 (0x30 + n % 10) :: acc)

/-- `dec(r)`: the decimal numeral of `r`, most significant digit first, without sign or leading zeros, digit
`d` as the character 0x30 + d (R142, log entry 13). -/
def decimal (r : Nat) : Text := decimalFrom (r + 1) r []

/-- `derive(k, r)` (R142). -/
def deriveKey (k : Text) (r : Nat) : Text := rotate k (r % k.length) ++ decimal r

/-- DERIVE's result (R145): the round key of round ROUNDS, and no trace. -/
def deriveResult (l : Latched) : Except ErrorCode Result :=
  .ok { bits := encodeText (deriveKey l.keyText l.rounds.toNat), records := [] }

/-- DERIVE (R145). -/
def execDerive (s : State) : Host.Outcome State Fault Refusal := runCommand .derive deriveResult s

end Sys2Proof.Machine
end

