-- ==== Sys2Proof/Machine/Feistel.lean ====
section
/-! DEFINITION. The Feistel engine: block formation, the two round schedules, the trace, and ENCRYPT and
DECRYPT (44_engine.md R180 to R196). -/

namespace Sys2Proof.Machine

/-- A block: the two halves (00_scope.md section 6). -/
structure Block where
  left : BitString
  right : BitString
deriving DecidableEq, Repr

/-- One round: its presentation number, its key index, the round key, the mix output, and the block before
and after it (R191, R192). -/
structure Round where
  number : Nat
  keyIndex : Nat
  subkey : Text
  f : BitString
  pre : Block
  post : Block
deriving DecidableEq, Repr

/-- `pad(s)`: one 0 bit after an odd number of bits (R180). -/
def padBits (s : BitString) : BitString := if s.length % 2 = 1 then s ++ [false] else s

/-- `split(s)` at the midpoint (R181). -/
def splitBits (s : BitString) : Block :=
  { left := s.take (s.length / 2), right := s.drop (s.length / 2) }

/-- The block of an input text: encoded, padded and split (R184, R185). -/
def formBlock (t : Text) : Block := splitBits (padBits (encodeText t))

/-- The block as one BitString, its halves not swapped (R186). -/
def Block.bits (b : Block) : BitString := b.left ++ b.right

/-- Encrypt round `r` (R183). -/
def encRound (k : Text) (r : Nat) (b : Block) : Round :=
  { number := r
    keyIndex := r
    subkey := deriveKey k r
    f := mixBits b.right (deriveKey k r)
    pre := b
    post := { left := b.right, right := xorBits b.left (mixBits b.right (deriveKey k r)) } }

/-- The block after encrypt round `r`, and before round 1 for `r = 0`: `(L_r, R_r)` of R184. -/
def encBlock (k : Text) (b : Block) : Nat → Block
  | 0 => b
  | r + 1 => (encRound k (r + 1) (encBlock k b r)).post

/-- Decrypt step `j`, with key index `r` (R185). -/
def decRound (k : Text) (j r : Nat) (b : Block) : Round :=
  { number := j
    keyIndex := r
    subkey := deriveKey k r
    f := mixBits b.left (deriveKey k r)
    pre := b
    post := { left := xorBits b.right (mixBits b.left (deriveKey k r)), right := b.left } }

/-- The block after decrypt step `j` of `n`, and before step 1 for `j = 0`; step `j` uses key index
`n + 1 - j` (R185). -/
def decBlock (k : Text) (n : Nat) (b : Block) : Nat → Block
  | 0 => b
  | j + 1 => (decRound k (j + 1) (n + 1 - (j + 1)) (decBlock k n b j)).post

/-- The rounds of an encryption, in order (R184). -/
def encRounds (k : Text) (n : Nat) (b : Block) : List Round :=
  (List.range n).map fun i => encRound k (i + 1) (encBlock k b i)

/-- The steps of a decryption, in order (R185). -/
def decRounds (k : Text) (n : Nat) (b : Block) : List Round :=
  (List.range n).map fun i => decRound k (i + 1) (n + 1 - (i + 1)) (decBlock k n b i)

/-- `encryptCore(p, k, n)` (R184). -/
def encryptCore (p k : Text) (n : Nat) : Except ErrorCode Text :=
  decodeBits (encBlock k (formBlock p) n).bits

/-- `decryptCore(c, k, n)` (R185). -/
def decryptCore (c k : Text) (n : Nat) : Except ErrorCode Text :=
  decodeBits (decBlock k n (formBlock c) n).bits

/-- The CONVERSION record (R189). -/
def conversionRecord (t : Text) : TraceRecord :=
  { kind := .conversion, roundNo := 0, keyRound := 0, subkey := [], halfBits := 0, f := [], preL := [],
    preR := [], postL := [], postR := [], block := encodeText t }

/-- The SPLIT record (R190). -/
def splitRecord (b : Block) : TraceRecord :=
  { kind := .split, roundNo := 0, keyRound := 0, subkey := [], halfBits := b.left.length, f := [], preL := [],
    preR := [], postL := b.left, postR := b.right, block := b.bits }

/-- A ROUND record (R191, R192). -/
def roundRecord (r : Round) : TraceRecord :=
  { kind := .round, roundNo := r.number, keyRound := r.keyIndex, subkey := r.subkey,
    halfBits := r.post.left.length, f := r.f, preL := r.pre.left, preR := r.pre.right, postL := r.post.left,
    postR := r.post.right, block := r.post.bits }

/-- The FINAL record (R193). -/
def finalRecord (b : Block) : TraceRecord :=
  { kind := .final, roundNo := 0, keyRound := 0, subkey := [], halfBits := b.left.length, f := [], preL := [],
    preR := [], postL := b.left, postR := b.right, block := b.bits }

/-- The trace of a run over input text `t`: conversion, split, the rounds in execution order, final (R188). -/
def traceOf (t : Text) (rounds : List Round) (last : Block) : List TraceRecord :=
  conversionRecord t :: splitRecord (formBlock t) :: (rounds.map roundRecord ++ [finalRecord last])

/-- ENCRYPT's trace (R188 to R191, R193). -/
def encryptTrace (p k : Text) (n : Nat) : List TraceRecord :=
  traceOf p (encRounds k n (formBlock p)) (encBlock k (formBlock p) n)

/-- DECRYPT's trace (R188 to R190, R192, R193). -/
def decryptTrace (c k : Text) (n : Nat) : List TraceRecord :=
  traceOf c (decRounds k n (formBlock c)) (decBlock k n (formBlock c) n)

/-- ENCRYPT's result (R195). -/
def encryptResult (l : Latched) : Except ErrorCode Result :=
  match encryptCore l.text l.keyText l.rounds.toNat with
  | .ok c => .ok { bits := encodeText c, records := encryptTrace l.text l.keyText l.rounds.toNat }
  | .error e => .error e

/-- ENCRYPT (R195). -/
def execEncrypt (s : State) : Host.Outcome State Fault Refusal := runCommand .encrypt encryptResult s

/-- DECRYPT's result (R196). -/
def decryptResult (l : Latched) : Except ErrorCode Result :=
  match decryptCore l.text l.keyText l.rounds.toNat with
  | .ok p => .ok { bits := encodeText p, records := decryptTrace l.text l.keyText l.rounds.toNat }
  | .error e => .error e

/-- DECRYPT (R196). -/
def execDecrypt (s : State) : Host.Outcome State Fault Refusal := runCommand .decrypt decryptResult s

end Sys2Proof.Machine
end

