-- ==== Sys2Proof/Machine/Lifecycle.lean ====
section
/-! DEFINITION. NOP and the reserved commands (40_command_lifecycle.md R109, R110). -/

namespace Sys2Proof.Machine

/-- NOP (R109): no state changes and the command is not accepted. -/
def execNop (s : State) : Host.Outcome State Fault Refusal := .next s

/-- Reserved OPCODE 0x7 (R110). -/
def execReserved7 (s : State) : Host.Outcome State Fault Refusal := runCommand .reserved7 noResult s

/-- Reserved OPCODE 0x8 (R110). -/
def execReserved8 (s : State) : Host.Outcome State Fault Refusal := runCommand .reserved8 noResult s

/-- Reserved OPCODE 0x9 (R110). -/
def execReserved9 (s : State) : Host.Outcome State Fault Refusal := runCommand .reserved9 noResult s

/-- Reserved OPCODE 0xA (R110). -/
def execReservedA (s : State) : Host.Outcome State Fault Refusal := runCommand .reservedA noResult s

/-- Reserved OPCODE 0xB (R110). -/
def execReservedB (s : State) : Host.Outcome State Fault Refusal := runCommand .reservedB noResult s

/-- Reserved OPCODE 0xC (R110). -/
def execReservedC (s : State) : Host.Outcome State Fault Refusal := runCommand .reservedC noResult s

/-- Reserved OPCODE 0xD (R110). -/
def execReservedD (s : State) : Host.Outcome State Fault Refusal := runCommand .reservedD noResult s

/-- Reserved OPCODE 0xE (R110). -/
def execReservedE (s : State) : Host.Outcome State Fault Refusal := runCommand .reservedE noResult s

/-- Reserved OPCODE 0xF (R110). -/
def execReservedF (s : State) : Host.Outcome State Fault Refusal := runCommand .reservedF noResult s

end Sys2Proof.Machine
end

