-- ==== Sys2Proof/Machine/Agents.lean ====
section
/-! DEFINITION. The two agents of 10_state.md R20: the host's events (20_memory.md R50 to R64; 30_encoding.md R86;
70_reset_and_hazards.md R250, R251) and the engine agent's completion step (40_command_lifecycle.md R103). -/

namespace Sys2Proof.Machine

/-- A legal write (R59 to R61): while BUSY it ends with ERROR and no effect; while idle a CMD write runs the
command it decodes to (40_command_lifecycle.md R100) and any other write stores. -/
def runWrite (off : Nat) (v : Word) (s : State) : Host.Outcome State Fault Refusal :=
  if s.busy then .next (respond (.write .error) s)
  else if off = offCmd then
    match exec (decode v) s with
    | .next t => .next (respond (.write .okay) t)
    | .fault r => .fault r
    | .refused r => .refused r
  else .next (respond (.write .okay) (storeWord off v s))

/-- One transaction (R50 to R52). An address outside the window is not decoded by the block, which gives no
response (log entry 14). An access of another size or alignment ends with ERROR, no effect and data 0. -/
def runTransaction (t : Transaction) (s : State) : Host.Outcome State Fault Refusal :=
  match windowOffset s.params t.addr with
  | none => .next s
  | some off =>
    match t with
    | .memRead _ size =>
      if legalAccess off size then
        .next (respond (.read .okay (readData s off)) { s with draws := drawsAfterRead s off })
      else .next (respond (.read .error 0) s)
    | .memWrite _ size v =>
      if legalAccess off size then runWrite off v s else .next (respond (.write .error) s)

/-- The newest response is a read whose masked data is `value`. -/
def pollMet (mask value : Word) (s : State) : Bool :=
  match s.responses with
  | .read _ d :: _ => decide (d &&& mask = value)
  | _ => false

/-- One read of a poll; the poll comes again unless its condition is met (30_encoding.md R86). At an address
outside the window no response comes, and the poll ends (log entry 14). -/
def runPoll (addr : Nat) (mask value : Word) (s : State) : Host.Outcome State Fault Refusal :=
  match runTransaction (.memRead addr 4) s with
  | .next t =>
    if (windowOffset s.params addr).isNone || pollMet mask value t then .next t
    else .next { t with host := .poll addr mask value :: t.host }
  | .fault r => .fault r
  | .refused r => .refused r

/-- The answer to a transaction in flight at a reset: unspecified (R251, log entry 5). -/
def inFlightResponse (t : Transaction) (n : Nat) : Response :=
  let status := if Config.inFlightOkay n then BusStatus.okay else BusStatus.error
  match t with
  | .memRead _ _ => .read status (Config.inFlightData n)
  | .memWrite _ _ _ => .write status

/-- A reset that comes while transaction `t` is in flight (R251): the transaction took effect before the
reset or it did not, and its answer is unspecified. -/
def runResetInFlight (t : Transaction) (s : State) : Host.Outcome State Fault Refusal :=
  let s1 := { s with draws := s.draws + 1 }
  let answered := fun (u : State) =>
    { u with responses :=
        if (windowOffset s.params t.addr).isSome then inFlightResponse t s.draws :: s.responses
        else s.responses }
  if Config.inFlightTakesEffect s.draws then
    match runTransaction t s1 with
    | .next u => .next (answered (resetBlock u))
    | .fault r => .fault r
    | .refused r => .refused r
  else .next (answered (resetBlock s1))

/-- One event of the host agent. -/
def runEvent (e : HostEvent) (s : State) : Host.Outcome State Fault Refusal :=
  match e with
  | .access t => runTransaction t s
  | .poll addr mask value => runPoll addr mask value s
  | .reset none => .next (resetBlock s)
  | .reset (some t) => runResetInFlight t s

/-- The host agent moves: its oldest event happens. With none to come, the idle block does nothing
(60_exceptions.md R239). Each host event brings a pending completion one nearer (log entry 2). -/
def hostMove (s : State) : Host.Outcome State Fault Refusal :=
  match s.host with
  | [] => .next s
  | e :: rest => runEvent e { s with host := rest, wait := s.wait - 1 }

/-- The engine agent is enabled while a command is in progress (R103); it moves when LATENCY host events have
passed since the acceptance, or when the host issues no more (log entry 2). -/
def engineMoves (s : State) : Bool :=
  s.busy && s.latched.isSome && (s.host.isEmpty || decide (s.wait = 0))

/-- The engine agent moves: the completion step of the command whose OPCODE is latched (R103). -/
def engineMove (s : State) : Host.Outcome State Fault Refusal :=
  match s.latched with
  | some l => exec (decodeOpcode l.op) s
  | none => .next s

/-- One event of the single total order of 20_memory.md R64. -/
def nextEvent (s : State) : Host.Outcome State Fault Refusal :=
  if engineMoves s then engineMove s else hostMove s

/-- Place an instruction where the next step takes it (log entry 9): the engine idle, and the host's next
event the write of that word to CMD. -/
def placeCommand (v : Word) (s : State) : State :=
  { s with
    busy := false
    latched := none
    host := .access (.memWrite (s.params.base + offCmd) 4 v) :: s.host }

end Sys2Proof.Machine
end

