-- ==== Sys2Proof/Machine/Program.lean ====
section
/-! DEFINITION. The host program notation: each statement's bus transactions, and whether the answers a program got
are those it states (30_encoding.md R86 to R88). -/

namespace Sys2Proof.Machine

/-- `wr OFF, V` (R86). -/
def writeEvent (p : Params) (off : Nat) (v : Word) : HostEvent := .access (.memWrite (p.base + off) 4 v)

/-- `poll OFF, MASK, V` (R86). -/
def pollEvent (p : Params) (off : Nat) (mask value : Word) : HostEvent := .poll (p.base + off) mask value

/-- Word `w` of a text: its bytes `4w` to `4w + 3` packed little-endian, missing bytes 0 (R87). -/
def textWord (t : Text) (w : Nat) : Word :=
  wordOfBytes (t.getD (4 * w) 0) (t.getD (4 * w + 1) 0) (t.getD (4 * w + 2) 0) (t.getD (4 * w + 3) 0)

/-- The writes that load a text into the buffer that starts at `off` (R87). -/
def loadEvents (p : Params) (off : Nat) (t : Text) : List HostEvent :=
  (List.range ((t.length + 3) / 4)).map fun w => writeEvent p (off + 4 * w) (textWord t w)

/-- `cmd NAME` (R87). -/
def commandEvent (p : Params) (i : Instr) : HostEvent := writeEvent p offCmd (encode i)

/-- `wait`: poll STATUS until BUSY = 0 (R87). -/
def waitEvent (p : Params) : HostEvent := pollEvent p offStatus 1 0

/-- The events a statement stands for (R86, R87). -/
def expand (p : Params) : HostStatement → List HostEvent
  | .wr off v => [writeEvent p off v]
  | .rd off _ => [.access (.memRead (p.base + off) 4)]
  | .poll off mask value => [pollEvent p off mask value]
  | .cmd i => [commandEvent p i]
  | .wait => [waitEvent p]
  | .loadtext t => loadEvents p textInBase t ++ [writeEvent p offTextLen (BitVec.ofNat 32 t.length)]
  | .loadkey t => loadEvents p keyBase t ++ [writeEvent p offKeyLen (BitVec.ofNat 32 t.length)]
  | .loadbits bytes n => loadEvents p textInBase bytes ++ [writeEvent p offBitLen (BitVec.ofNat 32 n)]
  | .rounds n => [writeEvent p offRounds (BitVec.ofNat 32 n)]
  | .run i => [commandEvent p i, waitEvent p]

/-- The events of a host program: its statements' in order (R86). -/
def expandProgram (p : Params) (program : List HostStatement) : List HostEvent := program.flatMap (expand p)

/-- The data a statement states for its read: V of `rd OFF -> V` (R86). No other statement states any. -/
def statedData : HostStatement → Option Word
  | .rd _ stated => stated
  | .wr _ _ | .poll _ _ _ | .cmd _ | .wait | .loadtext _ | .loadkey _ | .loadbits _ _ | .rounds _ | .run _ => none

/-- A statement's events, each with the data stated for it. -/
def statedEvents (p : Params) (st : HostStatement) : List (HostEvent × Option Word) :=
  (expand p st).map fun e => (e, statedData st)

/-- The answers that follow a poll's: the poll reads until the masked data equals `value` (R86). -/
def answersAfterPoll (mask value : Word) : List Response → Option (List Response)
  | .read _ d :: rs => if d &&& mask = value then some rs else answersAfterPoll mask value rs
  | _ => none

/-- The answers that follow an event's, oldest first, if its own are of its kind and give the data stated for it
(log entry 20). -/
def answersAfter : HostEvent × Option Word → List Response → Option (List Response)
  | (.access (.memRead _ _), none), .read _ _ :: rs => some rs
  | (.access (.memRead _ _), some v), .read status d :: rs => if status = .okay ∧ d = v then some rs else none
  | (.access (.memWrite _ _ _), _), .write _ :: rs => some rs
  | (.poll _ mask value, _), rs => answersAfterPoll mask value rs
  | _, _ => none

/-- The answers that follow those of a list of events. -/
def answersAfterAll : List (HostEvent × Option Word) → List Response → Option (List Response)
  | [], rs => some rs
  | e :: es, rs =>
    match answersAfter e rs with
    | some rest => answersAfterAll es rest
    | none => none

/-- The answers a program's statements call for, oldest first, are `rs`: every `rd OFF -> V` read V (R86). -/
def programMet (p : Params) (program : List HostStatement) (rs : List Response) : Bool :=
  decide (answersAfterAll (program.flatMap (statedEvents p)) rs = some [])

end Sys2Proof.Machine
end

