-- ==== Sys2Proof/Machine/Step.lean ====
section
/-! DEFINITION. One step of the machine: one event of the single total order of 20_memory.md R64. -/

namespace Sys2Proof.Machine

/-- One event: the engine agent's completion step, or the host's next event. -/
def step (s : State) : Host.Outcome State Fault Refusal := nextEvent s

/-- The state in which the next step runs the instruction whose `nbits` bits are `w` (log entry 9). -/
def State.withFetchWord (s : State) (nbits w : Nat) : State := placeCommand (tableWord nbits w) s

end Sys2Proof.Machine
end

