-- ==== Sys2Proof/Safety.lean ====
section
/-! DEFINITION. The terms claims are stated in: the invariant of reachable states, a command in progress with
valid operands, the state a failed command leaves, and views of the buffers. -/

namespace Sys2Proof.Machine

/-- The texts the host sees: TEXT_IN[0 .. TEXT_LEN). -/
def State.inputText (s : State) : Text := s.mem.readRange textInBase s.textLen.toNat

/-- KEY[0 .. KEY_LEN). -/
def State.keyText (s : State) : Text := s.mem.readRange keyBase s.keyLen.toNat

/-- OUT[0 .. OUT_LEN). -/
def State.outText (s : State) : Text := s.mem.readRange outBase s.outLen.toNat

/-- Byte `o` of trace slot `j`. -/
def State.slotByte (s : State) (j o : Nat) : Byte := s.mem.read (slotBase j + o)

/-- The 16-bit number at offset `o` of trace slot `j`, low byte first. -/
def State.slotHalfword (s : State) (j o : Nat) : Nat :=
  (s.slotByte j o).toNat + 256 * (s.slotByte j (o + 1)).toNat

/-- The error codes a failed command can report (93_implementation_defined.md U15): not 3, and none above 7. -/
def reportedCodes : List (BitVec 4) := [1, 2, 4, 5, 6, 7]

/-- What every reachable state satisfies (10_state.md R26 to R31, R36 to R38, R41 to R43; 00_scope.md R4). -/
structure Inv (s : State) : Prop where
  /-- The parameters are legal (R4). -/
  params_legal : s.params.legal = true
  /-- The buffers are in canonical form. -/
  memory_canonical : s.mem.wf s.params = true
  /-- (BUSY, DONE, ERR) is idle, busy, done or failed (R26). -/
  status_legal : (s.busy, s.done, s.err) ∈
    [(false, false, false), (true, false, false), (false, true, false), (false, false, true)]
  /-- ERRCODE is 0 unless ERR = 1 (R30). -/
  no_error_code : s.err = false → s.errcode = 0
  /-- ERRCODE is a reported code while ERR = 1 (R30). -/
  error_code : s.err = true → s.errcode ∈ reportedCodes
  /-- LAST_OP is 0 only before the first accepted command since reset (R31). -/
  last_op : s.lastOp = 0 → s.busy = false ∧ s.done = false ∧ s.err = false
  /-- Operands are latched exactly while BUSY = 1 (R43). -/
  latched_busy : s.latched.isSome = s.busy
  /-- The latched values equal the current register and buffer values (R43), and the latched OPCODE is
  LAST_OP (R31). -/
  latched_current : ∀ l, s.latched = some l → l = latchOperands s.lastOp s
  /-- OUT_LEN is OUT_BITS in whole bytes (R36). -/
  out_len : s.outLen.toNat = (s.outBits.toNat + 7) / 8
  /-- The result fits OUT (R41). -/
  out_fits : s.outLen.toNat ≤ outMax s.params
  /-- TRACE_COUNT is 0 or the count of a trace that fits TRACE (R38). -/
  trace_count : s.traceCount = 0 ∨
    (4 ≤ s.traceCount.toNat ∧ s.traceCount.toNat ≤ traceRecords s.params)
  /-- After a failure the lengths and the count are 0 (R36 to R38). -/
  failed_lengths : s.err = true → s.outBits = 0 ∧ s.traceCount = 0
  /-- After a success OUT is 0 from byte OUT_LEN on (R41). -/
  done_out : s.done = true → ∀ k, s.outLen.toNat ≤ k → k < outMax s.params → s.mem.read (outBase + k) = 0
  /-- After a success every slot from TRACE_COUNT on is all zero (R42). -/
  done_trace : s.done = true → ∀ j o, s.traceCount.toNat ≤ j → j < traceRecords s.params →
    o < slotBytes → s.slotByte j o = 0

/-- Command `i` is the one in progress, in a state that satisfies the invariant. -/
structure InProgress (i : Instr) (s : State) : Prop where
  inv : Inv s
  busy : s.busy = true
  command : s.lastOp = opcode i

/-- The operands of command `i` are those `l` holds latched: the engine agent's completion of `i` is enabled. -/
def Latches (s : State) (i : Instr) (l : Latched) : Prop :=
  s.busy = true ∧ s.latched = some l ∧ l.op = opcode i

/-- TEXT_LEN is legal at command time (10_state.md R33). -/
def textLenOk (s : State) : Prop := 1 ≤ s.textLen.toNat ∧ s.textLen.toNat ≤ s.params.nMax

/-- KEY_LEN is legal at command time (10_state.md R34). -/
def keyLenOk (s : State) : Prop := 1 ≤ s.keyLen.toNat ∧ s.keyLen.toNat ≤ s.params.kMax

/-- ROUNDS is legal at command time (10_state.md R32). -/
def roundsOk (s : State) : Prop := 1 ≤ s.rounds.toNat ∧ s.rounds.toNat ≤ s.params.rMax

/-- BIT_LEN is legal at command time (10_state.md R35). -/
def bitLenOk (s : State) : Prop := 1 ≤ s.bitLen.toNat ∧ s.bitLen.toNat ≤ 8 * s.params.nMax

/-- The state a failed completion leaves (40_command_lifecycle.md R107). -/
def failedWith (code : BitVec 4) (s : State) : State :=
  { s with
    outBits := 0
    outLen := 0
    traceCount := 0
    err := true
    errcode := code
    done := false
    busy := false
    latched := none }

/-- The status of a successful completion: DONE alone, and LAST_OP as it was (40_command_lifecycle.md R106). -/
def DoneFrom (s t : State) : Prop :=
  t.busy = false ∧ t.done = true ∧ t.err = false ∧ t.errcode = 0 ∧ t.lastOp = s.lastOp ∧ t.latched = none

/-- Everything a command never writes (10_state.md R48; 40_command_lifecycle.md R106): the parameters, the four
length registers, the host's events and responses, and every byte outside OUT and TRACE. -/
def KeepsInputs (s t : State) : Prop :=
  t.params = s.params ∧ t.rounds = s.rounds ∧ t.textLen = s.textLen ∧ t.keyLen = s.keyLen ∧
    t.bitLen = s.bitLen ∧ t.host = s.host ∧ t.responses = s.responses ∧
    ∀ a, inOutputs s.params a = false → bufferByte t a = bufferByte s a

/-- OUT is 0 from byte `n` on (10_state.md R41). -/
def OutZeroFrom (t : State) (n : Nat) : Prop :=
  ∀ k, n ≤ k → k < outMax t.params → t.mem.read (outBase + k) = 0

/-- Every trace slot from slot `n` on is all zero (10_state.md R42). -/
def TraceZeroFrom (t : State) (n : Nat) : Prop :=
  ∀ j o, n ≤ j → j < traceRecords t.params → o < slotBytes → t.slotByte j o = 0

/-- The field of `size` bytes at offset `o` of trace slot `j` holds `bits` from its first bit on, and every later
bit of it is 0 (20_memory.md R58; 41_codec.md R121). -/
def FieldBits (t : State) (j o size : Nat) (bits : BitString) : Prop :=
  ∀ i, i < 8 * size → (t.slotByte j (o + i / 8)).getLsbD (7 - i % 8) = bits.getD i false

/-- Trace slot `j` holds record `r` in the layout of 20_memory.md R58, and every byte no field sets is 0. -/
def SlotHolds (t : State) (j : Nat) (r : TraceRecord) : Prop :=
  t.slotByte j 0 = (match r.kind with | .conversion => 1 | .split => 2 | .round => 3 | .final => 4) ∧
    (t.slotByte j 1).toNat = r.roundNo ∧ (t.slotByte j 2).toNat = r.keyRound ∧
    (t.slotByte j 3).toNat = r.subkey.length ∧ t.slotHalfword j 4 = r.halfBits ∧
    t.slotHalfword j 6 = r.block.length ∧
    (∀ k, k < 0x100 → t.slotByte j (0x100 + k) = r.subkey.getD k 0) ∧
    FieldBits t j 0x200 0x80 r.f ∧ FieldBits t j 0x280 0x80 r.preL ∧ FieldBits t j 0x300 0x80 r.preR ∧
    FieldBits t j 0x380 0x80 r.postL ∧ FieldBits t j 0x400 0x80 r.postR ∧ FieldBits t j 0x500 0x100 r.block ∧
    ∀ o, (0x8 ≤ o ∧ o < 0x100) ∨ (0x480 ≤ o ∧ o < 0x500) ∨ (0x600 ≤ o ∧ o < 0x800) → t.slotByte j o = 0

/-- Every field of record `r` fits its place in the layout of 20_memory.md R58. -/
def RecordFits (r : TraceRecord) : Prop :=
  r.roundNo ≤ 255 ∧ r.keyRound ≤ 255 ∧ r.subkey.length ≤ 255 ∧ r.halfBits ≤ 1024 ∧ r.f.length ≤ 1024 ∧
    r.preL.length ≤ 1024 ∧ r.preR.length ≤ 1024 ∧ r.postL.length ≤ 1024 ∧ r.postR.length ≤ 1024 ∧
    r.block.length ≤ 2048

/-- The host agent moves next, and its next event is `e`. -/
def HostMoves (s : State) (e : HostEvent) (rest : List HostEvent) : Prop :=
  engineMoves s = false ∧ s.host = e :: rest

/-- State `s` after its next host event has been taken and answered with `r`, and nothing else has changed. `w` is
the model's own field `wait` after the event, which counts toward the free value LATENCY (log entries 2 and 11). -/
def answered (r : Response) (rest : List HostEvent) (w : Nat) (s : State) : State :=
  { s with host := rest, wait := w, responses := r :: s.responses }

end Sys2Proof.Machine
end

