-- ==== Sys2Proof/Certificates/Slice0/Obligations.lean ====
section
/-! DEFINITION. The statements for the provers. Each docstring names the rules of spec/ it formalises. -/

open Sys2Proof Sys2Proof.Machine

/-- 10_state.md R46: a reset, with or without a transaction in flight (70_reset_and_hazards.md R250, R251), leaves
every register field at its value of R46 and no command latched. -/
def Obligations.ResetSetsEveryRegister : Prop :=
  ∀ (s : State) (inFlight : Option Transaction) (rest : List HostEvent), HostMoves s (.reset inFlight) rest →
    ∃ t, step s = .next t ∧ t.busy = false ∧ t.done = false ∧ t.err = false ∧ t.errcode = 0 ∧ t.lastOp = 0 ∧
      t.rounds = 0 ∧ t.textLen = 0 ∧ t.keyLen = 0 ∧ t.bitLen = 0 ∧ t.outLen = 0 ∧ t.outBits = 0 ∧
      t.traceCount = 0 ∧ t.latched = none ∧ readWord t offId = 0x46454953 ∧
      (readWord t offParams).extractLsb' 0 8 = BitVec.ofNat 8 s.params.nMax ∧
      (readWord t offParams).extractLsb' 8 8 = BitVec.ofNat 8 s.params.kMax ∧
      (readWord t offParams).extractLsb' 16 8 = BitVec.ofNat 8 s.params.rMax ∧
      (readWord t offParams).extractLsb' 24 8 = 0x01 ∧ t.host = rest

/-- 10_state.md R47, and log entry 3, the model's form of the draw: after a reset every implemented byte of the four
buffers holds its draw of that reset, whatever that is. The index of that draw is one no event before the reset has
used and none after it will use. -/
def Obligations.ResetDrawsEveryBufferByte : Prop :=
  ∀ (s : State) (inFlight : Option Transaction) (rest : List HostEvent), HostMoves s (.reset inFlight) rest →
    ∃ t n, step s = .next t ∧ s.draws ≤ n ∧ n < t.draws ∧
      ∀ a, implemented s.params a = true → bufferByte t a = Config.resetByte n a

/-- The state right after reset satisfies the invariant: 10_state.md R26, R30, R31, R36 to R38, R43 and R46. Its
parameters are the model's choice within 00_scope.md R4 (the default capacities, and BASE = 0, which R4 leaves OPEN: log
entry 6), and so is the canonical form of the buffers (log entry 7). -/
def Obligations.ResetStateMeetsInvariant : Prop := Inv State.reset

/-- Every step keeps the invariant: the status combinations of R26, the error codes of R30, the latch of R43, the
lengths of R36 to R38, the zero tails of R41 and R42, and the canonical form of the buffers. -/
def Obligations.StepKeepsInvariant : Prop := ∀ s t : State, Inv s → step s = .next t → Inv t

/-- 40_command_lifecycle.md R103: the block never hangs and never stops. Every state has a next state. -/
def Obligations.StepAlwaysAnswersNext : Prop := ∀ s : State, ∃ t, step s = .next t

/-- 30_encoding.md R82: decoding is total and reads OPCODE alone; every command has exactly one OPCODE. -/
def Obligations.DecodingReadsOpcodeAlone : Prop :=
  (∀ v : Word, encode (decode v) = v &&& 0xF) ∧
    (∀ v w : Word, v &&& 0xF = w &&& 0xF → decode v = decode w) ∧ ∀ i : Instr, decode (encode i) = i

/-- 30_encoding.md R81: the opcode map, as CMD words. -/
def Obligations.OpcodeMapOfCmdWords : Prop :=
  decode 0x00000000 = .nop ∧ decode 0x00000001 = .encode ∧ decode 0x00000002 = .decode ∧
    decode 0x00000003 = .derive ∧ decode 0x00000004 = .mix ∧ decode 0x00000005 = .encrypt ∧
    decode 0x00000006 = .decrypt ∧ decode 0x00000007 = .reserved7 ∧ decode 0x00000008 = .reserved8 ∧
    decode 0x00000009 = .reserved9 ∧ decode 0x0000000A = .reservedA ∧ decode 0x0000000B = .reservedB ∧
    decode 0x0000000C = .reservedC ∧ decode 0x0000000D = .reservedD ∧ decode 0x0000000E = .reservedE ∧
    decode 0x0000000F = .reservedF

/-- 40_command_lifecycle.md R100, and log entry 9, the model's placing of a command: a CMD write while idle runs the
command its word decodes to, and is answered OKAY. The second part says so of a placed instruction. -/
def Obligations.CmdWriteRunsDecodedCommand : Prop :=
  (∀ (s : State) (v : Word) (rest : List HostEvent),
    HostMoves s (.access (.memWrite (s.params.base + 0x00008) 4 v)) rest → s.busy = false →
    ∃ t, exec (decode v) { s with host := rest, wait := s.wait - 1 } = .next t ∧
      step s = .next { t with responses := .write .okay :: t.responses }) ∧
  ∀ (s : State) (nbits w : Nat), ∃ t,
    exec (decode (tableWord nbits w)) { s with busy := false, latched := none, wait := s.wait - 1 } = .next t ∧
      step (s.withFetchWord nbits w) = .next { t with responses := .write .okay :: t.responses }

/-- 40_command_lifecycle.md R103, and log entry 2, the model's choice of the agent that moves: with no host event
left before it, the completion step is the command whose OPCODE is latched. -/
def Obligations.EngineStepRunsLatchedCommand : Prop :=
  ∀ (s : State) (l : Latched), s.busy = true → s.latched = some l → (s.wait = 0 ∨ s.host = []) →
    step s = exec (decodeOpcode l.op) s

/-- 40_command_lifecycle.md R101: acceptance of a command other than NOP, with everything it leaves unchanged. `w`
and `d` are the model's own fields, which hold the free value LATENCY and the next draw (log entry 2). -/
def Obligations.AcceptanceLatchesOperands : Prop :=
  ∀ (i : Instr) (s : State), i ≠ .nop → s.busy = false → ∃ w d, exec i s = .next
    { s with
      busy := true
      done := false
      err := false
      errcode := 0
      lastOp := opcode i
      latched := some
        { op := opcode i
          rounds := s.rounds
          textLen := s.textLen
          keyLen := s.keyLen
          bitLen := s.bitLen
          textIn := (List.range s.params.nMax).map fun k => s.mem.read (0x100 + k)
          key := (List.range s.params.kMax).map fun k => s.mem.read (0x200 + k) }
      wait := w
      draws := d }

/-- 30_encoding.md R84: a CMD write with bits [3:0] = 0 is NOP and changes nothing but the host's own channel, idle
or busy; NOP itself changes nothing at all. -/
def Obligations.NopWriteHasNoEffect : Prop :=
  (∀ s : State, exec .nop s = .next s) ∧
  ∀ (s : State) (v : Word) (rest : List HostEvent),
    HostMoves s (.access (.memWrite (s.params.base + 0x00008) 4 v)) rest → v.extractLsb' 0 4 = 0 →
    decode v = .nop ∧ ∃ w, step s = .next (answered (.write (if s.busy then .error else .okay)) rest w s)

/-- 40_command_lifecycle.md R110: a reserved command is accepted, and always completes with IllegalCommandError (7),
whatever every register and buffer holds, leaving OUT and TRACE. -/
def Obligations.ReservedCommandsAreIllegal : Prop :=
  ∀ i : Instr, i ∈ [Instr.reserved7, .reserved8, .reserved9, .reservedA, .reservedB, .reservedC, .reservedD,
      .reservedE, .reservedF] →
    (∀ s : State, s.busy = false → ∃ t, exec i s = .next t ∧ t.busy = true ∧ t.lastOp = opcode i) ∧
    ∀ (s : State) (l : Latched), Latches s i l → exec i s = .next (failedWith 7 s)

/-- 40_command_lifecycle.md R104 and R107: the completion step reports the first failing check of R104, in its
order, and then changes only what R107 names; with every check passed the command succeeds. -/
def Obligations.ValidationReportsFirstFailure : Prop :=
  ∀ (i : Instr) (s : State) (l : Latched), i ≠ .nop → Latches s i l →
    let key := i = .derive ∨ i = .mix ∨ i = .encrypt ∨ i = .decrypt
    let rounds := i = .derive ∨ i = .encrypt ∨ i = .decrypt
    let text := i = .encode ∨ i = .encrypt ∨ i = .decrypt
    let bits := i = .decode ∨ i = .mix
    let code : Option (BitVec 4) :=
      if 7 ≤ (opcode i).toNat then some 7
      else if key ∧ l.keyLen.toNat = 0 then some 1
      else if key ∧ s.params.kMax < l.keyLen.toNat then some 6
      else if rounds ∧ l.rounds.toNat = 0 then some 2
      else if rounds ∧ s.params.rMax < l.rounds.toNat then some 6
      else if text ∧ l.textLen.toNat = 0 then some 5
      else if text ∧ s.params.nMax < l.textLen.toNat then some 6
      else if bits ∧ l.bitLen.toNat = 0 then some 5
      else if bits ∧ 8 * s.params.nMax < l.bitLen.toNat then some 6
      else if i = .decode ∧ l.bitLen.toNat % 8 ≠ 0 then some 4
      else none
    (∀ c, code = some c → exec i s = .next (failedWith c s)) ∧
      (code = none → ∃ t, exec i s = .next t ∧ DoneFrom s t)

/-- 40_command_lifecycle.md R106 with the record layout of 20_memory.md R58: what a successful completion writes. -/
def Obligations.CompletionWritesOutputs : Prop :=
  ∀ (s : State) (r : Result), s.params.legal = true → r.bits.length ≤ 8 * outMax s.params →
    r.records.length ≤ traceRecords s.params → (∀ rec ∈ r.records, RecordFits rec) →
    let t := completeOk r s
    (∀ k, k < outMax s.params → t.mem.read (outBase + k) = (packBits r.bits).getD k 0) ∧
      t.outBits.toNat = r.bits.length ∧ t.outLen.toNat = (r.bits.length + 7) / 8 ∧
      t.traceCount.toNat = r.records.length ∧
      (∀ j rec, r.records[j]? = some rec → SlotHolds t j rec) ∧ TraceZeroFrom t r.records.length ∧
      DoneFrom s t ∧ KeepsInputs s t

/-- 41_codec.md R126: ENCODE's effect on operands that pass validation. -/
def Obligations.EncodeWritesInputText : Prop :=
  ∀ s : State, InProgress .encode s → textLenOk s →
    ∃ t, exec .encode s = .next t ∧ DoneFrom s t ∧ KeepsInputs s t ∧
      t.outLen.toNat = s.textLen.toNat ∧ t.outBits.toNat = 8 * s.textLen.toNat ∧ t.traceCount = 0 ∧
      t.outText = s.inputText ∧ OutZeroFrom t s.textLen.toNat ∧ TraceZeroFrom t 0

/-- 41_codec.md R127: DECODE's effect on operands that pass validation. -/
def Obligations.DecodeWritesBytesOfBits : Prop :=
  ∀ s : State, InProgress .decode s → bitLenOk s → s.bitLen.toNat % 8 = 0 →
    ∃ t, exec .decode s = .next t ∧ DoneFrom s t ∧ KeepsInputs s t ∧
      t.outLen.toNat = s.bitLen.toNat / 8 ∧ t.outBits.toNat = s.bitLen.toNat ∧ t.traceCount = 0 ∧
      t.outText = s.mem.readRange textInBase (s.bitLen.toNat / 8) ∧ OutZeroFrom t (s.bitLen.toNat / 8) ∧
      TraceZeroFrom t 0

/-- 42_round_key.md R145 with R142: DERIVE's effect on operands that pass validation. Byte `k` of the rotated key is
byte `(k + ROUNDS) mod KEY_LEN` of KEY, and the decimal digits of ROUNDS follow. The digits' form is the spec's
general knowledge (93_implementation_defined.md G1, log entry 13). -/
def Obligations.DeriveWritesRoundKey : Prop :=
  ∀ s : State, InProgress .derive s → keyLenOk s → roundsOk s →
    let n := s.keyLen.toNat
    let r := s.rounds.toNat
    ∃ t, exec .derive s = .next t ∧ DoneFrom s t ∧ KeepsInputs s t ∧ t.traceCount = 0 ∧
      t.outBits.toNat = 8 * t.outLen.toNat ∧
      (∀ k, k < n → t.mem.read (outBase + k) = s.mem.read (keyBase + (k + r) % n)) ∧
      (r ≤ 9 → t.outLen.toNat = n + 1 ∧ (t.mem.read (outBase + n)).toNat = 0x30 + r) ∧
      (10 ≤ r → r ≤ 99 → t.outLen.toNat = n + 2 ∧ (t.mem.read (outBase + n)).toNat = 0x30 + r / 10 ∧
        (t.mem.read (outBase + n + 1)).toNat = 0x30 + r % 10) ∧
      (100 ≤ r → t.outLen.toNat = n + 3 ∧ (t.mem.read (outBase + n)).toNat = 0x30 + r / 100 ∧
        (t.mem.read (outBase + n + 1)).toNat = 0x30 + r / 10 % 10 ∧
        (t.mem.read (outBase + n + 2)).toNat = 0x30 + r % 10) ∧
      OutZeroFrom t t.outLen.toNat ∧ TraceZeroFrom t 0

/-- 43_mix.md R162 with R160: MIX's effect on operands that pass validation, bit by bit. Bit `i` of a buffer is bit
`7 - i mod 8` of its byte `i div 8`. -/
def Obligations.MixWritesMixedBits : Prop :=
  ∀ s : State, InProgress .mix s → keyLenOk s → bitLenOk s →
    ∃ t, exec .mix s = .next t ∧ DoneFrom s t ∧ KeepsInputs s t ∧ t.traceCount = 0 ∧
      t.outBits.toNat = s.bitLen.toNat ∧ t.outLen.toNat = (s.bitLen.toNat + 7) / 8 ∧
      (∀ i, i < s.bitLen.toNat → (t.mem.read (outBase + i / 8)).getLsbD (7 - i % 8) =
        xor (xor ((s.mem.read (textInBase + i / 8)).getLsbD (7 - i % 8))
          ((s.mem.read (keyBase + i % (8 * s.keyLen.toNat) / 8)).getLsbD (7 - i % (8 * s.keyLen.toNat) % 8)))
          (decide (i % 2 = 1))) ∧
      (∀ i, s.bitLen.toNat ≤ i → i < 8 * outMax s.params →
        (t.mem.read (outBase + i / 8)).getLsbD (7 - i % 8) = false) ∧ TraceZeroFrom t 0

/-- 44_engine.md R195: ENCRYPT's effect on operands that pass validation (the trace is stated below). -/
def Obligations.EncryptWritesCiphertext : Prop :=
  ∀ s : State, InProgress .encrypt s → textLenOk s → keyLenOk s → roundsOk s →
    ∃ t c, exec .encrypt s = .next t ∧ DoneFrom s t ∧ KeepsInputs s t ∧
      encryptCore s.inputText s.keyText s.rounds.toNat = .ok c ∧ t.outText = c ∧
      t.outLen.toNat = s.textLen.toNat ∧ t.outBits.toNat = 8 * s.textLen.toNat ∧
      t.traceCount.toNat = s.rounds.toNat + 3 ∧ OutZeroFrom t s.textLen.toNat

/-- 44_engine.md R196: DECRYPT's effect on operands that pass validation (the trace is stated below). -/
def Obligations.DecryptWritesPlaintext : Prop :=
  ∀ s : State, InProgress .decrypt s → textLenOk s → keyLenOk s → roundsOk s →
    ∃ t p, exec .decrypt s = .next t ∧ DoneFrom s t ∧ KeepsInputs s t ∧
      decryptCore s.inputText s.keyText s.rounds.toNat = .ok p ∧ t.outText = p ∧
      t.outLen.toNat = s.textLen.toNat ∧ t.outBits.toNat = 8 * s.textLen.toNat ∧
      t.traceCount.toNat = s.rounds.toNat + 3 ∧ OutZeroFrom t s.textLen.toNat

/-- 44_engine.md R191, with what R188 to R190, R193 and R194 say of an ENCRYPT: the trace it leaves, slot by slot. -/
def Obligations.EncryptTraceHoldsEveryRound : Prop :=
  ∀ s : State, InProgress .encrypt s → textLenOk s → keyLenOk s → roundsOk s →
    let p := s.inputText
    let k := s.keyText
    let n := s.rounds.toNat
    let h := 4 * s.textLen.toNat
    let b := encBlock k { left := (encodeText p).take h, right := (encodeText p).drop h }
    ∃ t, exec .encrypt s = .next t ∧ t.traceCount.toNat = n + 3 ∧
      SlotHolds t 0
        { kind := .conversion, roundNo := 0, keyRound := 0, subkey := [], halfBits := 0, f := [], preL := [],
          preR := [], postL := [], postR := [], block := encodeText p } ∧
      SlotHolds t 1
        { kind := .split, roundNo := 0, keyRound := 0, subkey := [], halfBits := h, f := [], preL := [],
          preR := [], postL := (b 0).left, postR := (b 0).right, block := (b 0).left ++ (b 0).right } ∧
      (∀ r, 1 ≤ r → r ≤ n → SlotHolds t (r + 1)
        { kind := .round, roundNo := r, keyRound := r, subkey := deriveKey k r, halfBits := h,
          f := mixBits (b (r - 1)).right (deriveKey k r), preL := (b (r - 1)).left,
          preR := (b (r - 1)).right, postL := (b r).left, postR := (b r).right,
          block := (b r).left ++ (b r).right }) ∧
      SlotHolds t (n + 2)
        { kind := .final, roundNo := 0, keyRound := 0, subkey := [], halfBits := h, f := [], preL := [],
          preR := [], postL := (b n).left, postR := (b n).right, block := (b n).left ++ (b n).right } ∧
      TraceZeroFrom t (n + 3)

/-- 44_engine.md R192, with what R188 to R190, R193 and R194 say of a DECRYPT: the trace it leaves, slot by slot. Steps
are numbered upwards while the key index `n + 1 - j` goes down. -/
def Obligations.DecryptTraceHoldsEveryStep : Prop :=
  ∀ s : State, InProgress .decrypt s → textLenOk s → keyLenOk s → roundsOk s →
    let c := s.inputText
    let k := s.keyText
    let n := s.rounds.toNat
    let h := 4 * s.textLen.toNat
    let b := decBlock k n { left := (encodeText c).take h, right := (encodeText c).drop h }
    ∃ t, exec .decrypt s = .next t ∧ t.traceCount.toNat = n + 3 ∧
      SlotHolds t 0
        { kind := .conversion, roundNo := 0, keyRound := 0, subkey := [], halfBits := 0, f := [], preL := [],
          preR := [], postL := [], postR := [], block := encodeText c } ∧
      SlotHolds t 1
        { kind := .split, roundNo := 0, keyRound := 0, subkey := [], halfBits := h, f := [], preL := [],
          preR := [], postL := (b 0).left, postR := (b 0).right, block := (b 0).left ++ (b 0).right } ∧
      (∀ j, 1 ≤ j → j ≤ n → SlotHolds t (j + 1)
        { kind := .round, roundNo := j, keyRound := n + 1 - j, subkey := deriveKey k (n + 1 - j),
          halfBits := h, f := mixBits (b (j - 1)).left (deriveKey k (n + 1 - j)), preL := (b (j - 1)).left,
          preR := (b (j - 1)).right, postL := (b j).left, postR := (b j).right,
          block := (b j).left ++ (b j).right }) ∧
      SlotHolds t (n + 2)
        { kind := .final, roundNo := 0, keyRound := 0, subkey := [], halfBits := h, f := [], preL := [],
          preR := [], postL := (b n).left, postR := (b n).right, block := (b n).left ++ (b n).right } ∧
      TraceZeroFrom t (n + 3)

/-- 44_engine.md R183, R184 and R186: encryptCore is the recurrence of the encrypt rounds, and its last block is not
swapped. -/
def Obligations.EncryptCoreIsTheRoundRecurrence : Prop :=
  ∀ (p k : Text) (n : Nat), ∃ (c : Text) (left right : Nat → BitString), encryptCore p k n = .ok c ∧
    left 0 ++ right 0 = encodeText p ∧
    (∀ r, (left r).length = 4 * p.length ∧ (right r).length = 4 * p.length) ∧
    (∀ r, left (r + 1) = right r ∧ ∀ i, i < 4 * p.length → (right (r + 1)).getD i false =
      xor ((left r).getD i false) ((mixBits (right r) (deriveKey k (r + 1))).getD i false)) ∧
    encodeText c = left n ++ right n

/-- 44_engine.md R185 and R186: decryptCore is the recurrence of the decrypt steps, with the key index going down.
-/
def Obligations.DecryptCoreIsTheStepRecurrence : Prop :=
  ∀ (c k : Text) (n : Nat), ∃ (p : Text) (left right : Nat → BitString), decryptCore c k n = .ok p ∧
    left 0 ++ right 0 = encodeText c ∧
    (∀ j, (left j).length = 4 * c.length ∧ (right j).length = 4 * c.length) ∧
    (∀ j, right (j + 1) = left j ∧ ∀ i, i < 4 * c.length → (left (j + 1)).getD i false =
      xor ((right j).getD i false) ((mixBits (left j) (deriveKey k (n + 1 - (j + 1)))).getD i false)) ∧
    encodeText p = left n ++ right n

/-- 44_engine.md R187, which the spec derives from R182 to R185: decryption undoes encryption and encryption undoes
decryption; after decrypt step `j` the block is the one before encrypt round `n + 1 - j`. -/
def Obligations.DecryptUndoesEncrypt : Prop :=
  ∀ (t k : Text) (n : Nat), 1 ≤ t.length → 1 ≤ k.length → 1 ≤ n →
    (∃ c, encryptCore t k n = .ok c ∧ decryptCore c k n = .ok t) ∧
      (∃ p, decryptCore t k n = .ok p ∧ encryptCore p k n = .ok t) ∧
      ∀ j, j ≤ n → decBlock k n (encBlock k (formBlock t) n) j = encBlock k (formBlock t) (n - j)

/-- 44_engine.md R187 (derived there) on the machine: when the OUT of an ENCRYPT is the TEXT_IN of a DECRYPT with
the same key and round count, DECRYPT's OUT is the text that was encrypted. -/
def Obligations.DecryptCommandRestoresPlaintext : Prop :=
  ∀ s t u : State, InProgress .encrypt s → textLenOk s → keyLenOk s → roundsOk s → exec .encrypt s = .next t →
    InProgress .decrypt u → u.params = s.params → u.textLen = t.outLen → u.inputText = t.outText →
    u.keyLen = s.keyLen → u.keyText = s.keyText → u.rounds = s.rounds →
    ∃ v, exec .decrypt u = .next v ∧ DoneFrom u v ∧ v.outText = s.inputText ∧
      v.outLen.toNat = s.textLen.toNat

/-- 42_round_key.md R143, which the spec derives from R142: distinct rounds have distinct round keys, by their
length or by their last characters. The numeral's form is the spec's general knowledge (93_implementation_defined.md
G1, log entry 13). -/
def Obligations.RoundKeysAreDistinct : Prop :=
  ∀ (k : Text) (r1 r2 : Nat), 1 ≤ k.length → r1 ≠ r2 →
    deriveKey k r1 ≠ deriveKey k r2 ∧
      ((decimal r1).length ≠ (decimal r2).length → (deriveKey k r1).length ≠ (deriveKey k r2).length) ∧
      ((decimal r1).length = (decimal r2).length →
        (deriveKey k r1).drop k.length ≠ (deriveKey k r2).drop k.length)

/-- 42_round_key.md R142 with R140, for the round indexes the block accepts: the round key is the rotated key and
then the decimal numeral, whose digits are written out. The digits' form is the spec's general knowledge
(93_implementation_defined.md G1, log entry 13). -/
def Obligations.DeriveFollowsFormula : Prop :=
  ∀ (k : Text) (r : Nat), 1 ≤ k.length → 1 ≤ r → r ≤ 255 →
    deriveKey k r = k.drop (r % k.length) ++ k.take (r % k.length) ++ decimal r ∧
      (r ≤ 9 → decimal r = [BitVec.ofNat 8 (0x30 + r)]) ∧
      (10 ≤ r → r ≤ 99 → decimal r = [BitVec.ofNat 8 (0x30 + r / 10), BitVec.ofNat 8 (0x30 + r % 10)]) ∧
      (100 ≤ r → decimal r = [BitVec.ofNat 8 (0x30 + r / 100), BitVec.ofNat 8 (0x30 + r / 10 % 10),
        BitVec.ofNat 8 (0x30 + r % 10)]) ∧
      (deriveKey k r).length = k.length + (if r ≤ 9 then 1 else if r ≤ 99 then 2 else 3) ∧
      (k.length ≤ 252 → (deriveKey k r).length ≤ 255)

/-- 42_round_key.md R144, whose general form the spec derives from R142: a one-character key never rotates, and the
rotated part depends on the round only through its remainder by the key's length. -/
def Obligations.RotationIsPeriodic : Prop :=
  ∀ (k : Text) (r : Nat), 1 ≤ k.length →
    (k.length = 1 → deriveKey k r = k ++ decimal r) ∧
      (∀ m, (deriveKey k (r + m * k.length)).take k.length = (deriveKey k r).take k.length) ∧
      ∀ m, deriveKey k (m * k.length) = k ++ decimal (m * k.length)

/-- 43_mix.md R161, whose laws the spec derives from R160: mix keeps the length, is an exclusive or with a key
stream that does not depend on the input, undoes itself, and uses the key bits with period `8 len(kt)`. -/
def Obligations.MixIsAKeyStreamXor : Prop :=
  ∀ (x y : BitString) (kt : Text), 1 ≤ kt.length → x.length = y.length →
    (mixBits x kt).length = x.length ∧
      (∃ ks : Nat → Bool, (∀ i, ks i = xor ((encodeText kt).getD (i % (8 * kt.length)) false) (decide (i % 2 = 1))) ∧
        (∀ i, ks (i + 8 * kt.length) = ks i) ∧
        ∀ i, i < x.length → (mixBits x kt).getD i false = xor (x.getD i false) (ks i)) ∧
      mixBits (mixBits x kt) kt = x ∧ xorBits (mixBits x kt) (mixBits y kt) = xorBits x y

/-- 41_codec.md R125, whose second law the spec derives from R122 and R123: the codec's two round trips. -/
def Obligations.CodecRoundTrips : Prop :=
  (∀ t : Text, decodeBits (encodeText t) = .ok t) ∧
    ∀ s : BitString, s.length % 8 = 0 → ∃ t, decodeBits s = .ok t ∧ encodeText t = s

/-- 41_codec.md R121, with R120, from which the spec derives it: where each bit of a packed BitString lies, and that
unpacking undoes packing. -/
def Obligations.PackBitsPlacesEveryBit : Prop :=
  ∀ s : BitString, (packBits s).length = (s.length + 7) / 8 ∧
    (∀ k j, k < (packBits s).length → j < 8 → ((packBits s).getD k 0).getLsbD (7 - j) =
      (if 8 * k + j < s.length then s.getD (8 * k + j) false else false)) ∧
    bitsOf (packBits s) s.length = s

/-- 44_engine.md R182, which the spec derives from R180, R181 and 41_codec.md R122: the pad never fires, and both
halves have `4 len` bits at every round boundary of both directions; in a text of odd length the split falls inside
a character, after its high nibble. -/
def Obligations.HalvesStayEqual : Prop :=
  ∀ (t k : Text) (n : Nat), padBits (encodeText t) = encodeText t ∧
    (∀ r, (encBlock k (formBlock t) r).left.length = 4 * t.length ∧
      (encBlock k (formBlock t) r).right.length = 4 * t.length) ∧
    (∀ j, (decBlock k n (formBlock t) j).left.length = 4 * t.length ∧
      (decBlock k n (formBlock t) j).right.length = 4 * t.length) ∧
    (t.length % 2 = 1 → 4 * t.length % 8 = 4 ∧
      (formBlock t).left = encodeText (t.take ((t.length - 1) / 2)) ++
        (bits8 (t.getD ((t.length - 1) / 2) 0)).take 4)

/-- 20_memory.md R62 and 10_state.md R48: no read has a side effect. Only the host's own channel and the draw index
of the model move (log entry 11). -/
def Obligations.ReadsChangeNothing : Prop :=
  ∀ (s : State) (addr size : Nat) (rest : List HostEvent), HostMoves s (.access (.memRead addr size)) rest →
    ∃ rs w d, step s = .next { s with host := rest, wait := w, responses := rs, draws := d }

/-- 20_memory.md R52: a transaction of another size or alignment ends with ERROR, no effect and, for a read, data 0.
-/
def Obligations.OtherAccessesEndWithError : Prop :=
  ∀ (s : State) (t : Transaction) (off : Nat) (rest : List HostEvent), HostMoves s (.access t) rest →
    t.addr = s.params.base + off → off < 0x100000 → (t.size ≠ 4 ∨ off % 4 ≠ 0) →
    ∃ w, step s = .next (answered
      (match t with | .memRead _ _ => .read .error 0 | .memWrite _ _ _ => .write .error) rest w s)

/-- 20_memory.md R61: writes and reads while BUSY = 1. The data of the last clause is unspecified; the model's draw
for it is a free value (log entry 4). -/
def Obligations.BusyAccesses : Prop :=
  ∀ (s : State) (off : Nat) (rest : List HostEvent), s.busy = true → off < 0x100000 → off % 4 = 0 →
    (∀ v, HostMoves s (.access (.memWrite (s.params.base + off) 4 v)) rest →
      ∃ w, step s = .next (answered (.write .error) rest w s)) ∧
    (HostMoves s (.access (.memRead (s.params.base + off) 4)) rest →
      ((off = 0x0 ∨ off = 0x4 ∨ off = 0xC) →
        ∃ w, step s = .next (answered (.read .okay (readWord s off)) rest w s)) ∧
      (¬ (off = 0x0 ∨ off = 0x4 ∨ off = 0xC) → ∃ data w d,
        step s = .next { answered (.read .okay data) rest w s with draws := d }))

/-- 20_memory.md R59 for the registers: a legal write while idle stores the defined bits of an RW register, changes
nothing else, and a later read returns those bits with the reserved bits 0. -/
def Obligations.WritableRegistersKeepDefinedBits : Prop :=
  ∀ (s : State) (off : Nat) (v : Word) (rest : List HostEvent), s.busy = false →
    HostMoves s (.access (.memWrite (s.params.base + off) 4 v)) rest →
    ∃ w, let s' := answered (.write .okay) rest w s
    (off = 0x10 → step s = .next { s' with rounds := v.extractLsb' 0 8 } ∧
      readWord { s' with rounds := v.extractLsb' 0 8 } off = v &&& 0xFF) ∧
    (off = 0x14 → step s = .next { s' with textLen := v.extractLsb' 0 8 } ∧
      readWord { s' with textLen := v.extractLsb' 0 8 } off = v &&& 0xFF) ∧
    (off = 0x18 → step s = .next { s' with keyLen := v.extractLsb' 0 8 } ∧
      readWord { s' with keyLen := v.extractLsb' 0 8 } off = v &&& 0xFF) ∧
    (off = 0x1C → step s = .next { s' with bitLen := v.extractLsb' 0 16 } ∧
      readWord { s' with bitLen := v.extractLsb' 0 16 } off = v &&& 0xFFFF)

/-- 20_memory.md R55 and R59 for the buffers: a legal write into the TEXT_IN or KEY window while idle stores exactly
its implemented bytes, changes no other byte and no register, and reads back with 0 in the unimplemented bytes. -/
def Obligations.BufferWritesStoreImplementedBytes : Prop :=
  ∀ (s : State) (off : Nat) (v : Word) (rest : List HostEvent), Inv s → s.busy = false → off % 4 = 0 →
    0x100 ≤ off → off < 0x300 → HostMoves s (.access (.memWrite (s.params.base + off) 4 v)) rest →
    ∃ t w, step s = .next t ∧ t = { answered (.write .okay) rest w s with mem := t.mem } ∧
      (∀ k, k < 4 → bufferByte t (off + k) =
        if inTextIn s.params (off + k) || inKey s.params (off + k) then v.extractLsb' (8 * k) 8 else 0) ∧
      (∀ a, a < off ∨ off + 4 ≤ a → bufferByte t a = bufferByte s a) ∧
      ∀ k, k < 4 → (readWord t off).extractLsb' (8 * k) 8 = bufferByte t (off + k)

/-- 20_memory.md R60: a legal write to a read-only location while idle is ignored and answered OKAY, and a read of
CMD returns 0 with OKAY. -/
def Obligations.ReadOnlyWritesAreIgnored : Prop :=
  ∀ (s : State) (off : Nat) (v : Word) (rest : List HostEvent), s.params.legal = true → s.busy = false →
    (off % 4 = 0 → (off ∈ [0x00, 0x04, 0x0C, 0x20, 0x24, 0x28] ∨ (0x300 ≤ off ∧ off < 0x400) ∨
        (0x10000 ≤ off ∧ off < 0x10000 + 0x800 * traceRecords s.params)) →
      HostMoves s (.access (.memWrite (s.params.base + off) 4 v)) rest →
      ∃ w, step s = .next (answered (.write .okay) rest w s)) ∧
    (off = 0x08 → HostMoves s (.access (.memRead (s.params.base + off) 4)) rest →
      ∃ w, step s = .next (answered (.read .okay 0) rest w s))

/-- 20_memory.md R56: reserved offsets read 0 and ignore writes, with OKAY, while idle. -/
def Obligations.ReservedOffsetsReadZero : Prop :=
  ∀ (s : State) (off : Nat) (v : Word) (rest : List HostEvent), s.params.legal = true → s.busy = false →
    off % 4 = 0 → ((0x2C ≤ off ∧ off < 0x100) ∨ (0x400 ≤ off ∧ off < 0x10000) ∨
      (0x10000 + 0x800 * traceRecords s.params ≤ off ∧ off < 0x100000)) →
    (HostMoves s (.access (.memRead (s.params.base + off) 4)) rest →
      ∃ w, step s = .next (answered (.read .okay 0) rest w s)) ∧
    (HostMoves s (.access (.memWrite (s.params.base + off) 4 v)) rest →
      ∃ w, step s = .next (answered (.write .okay) rest w s))

/-- 20_memory.md R53: where each byte of the four buffers lies in the word a host reads, and where each bit of a
BitString lies in its byte. -/
def Obligations.BufferBytesPackLittleEndian : Prop :=
  (∀ (s : State) (k : Nat), s.params.legal = true →
    (k < s.params.nMax →
      (readWord s (0x100 + 4 * (k / 4))).extractLsb' (8 * (k % 4)) 8 = s.mem.read (0x100 + k)) ∧
    (k < s.params.kMax →
      (readWord s (0x200 + 4 * (k / 4))).extractLsb' (8 * (k % 4)) 8 = s.mem.read (0x200 + k)) ∧
    (k < outMax s.params →
      (readWord s (0x300 + 4 * (k / 4))).extractLsb' (8 * (k % 4)) 8 = s.mem.read (0x300 + k)) ∧
    ∀ j, j < traceRecords s.params → k < 0x800 →
      (readWord s (0x10000 + 0x800 * j + 4 * (k / 4))).extractLsb' (8 * (k % 4)) 8 = s.slotByte j k) ∧
  ∀ (b : Text) (n i : Nat), i < n → (bitsOf b n).getD i false = (b.getD (i / 8) 0).getLsbD (7 - i % 8)

/-- 10_state.md R26: the fields of the STATUS word. -/
def Obligations.StatusWordFields : Prop :=
  ∀ s : State, let w := readWord s 0x0C
    w.getLsbD 0 = s.busy ∧ w.getLsbD 1 = s.done ∧ w.getLsbD 2 = s.err ∧ w.getLsbD 3 = false ∧
      w.extractLsb' 4 4 = s.errcode ∧ w.extractLsb' 8 4 = s.lastOp ∧ w.extractLsb' 12 20 = 0

/-- 10_state.md R23 and R24: what ID and PARAMS read at all times, including while BUSY. -/
def Obligations.IdAndParamsReadAtAllTimes : Prop :=
  ∀ (s : State) (rest : List HostEvent), s.params.legal = true →
    (HostMoves s (.access (.memRead (s.params.base + 0x0) 4)) rest →
      ∃ w, step s = .next (answered (.read .okay 0x46454953) rest w s)) ∧
    (HostMoves s (.access (.memRead (s.params.base + 0x4) 4)) rest →
      ∃ (p : Word) (w : Nat), step s = .next (answered (.read .okay p) rest w s) ∧
        (p.extractLsb' 0 8).toNat = s.params.nMax ∧ (p.extractLsb' 8 8).toNat = s.params.kMax ∧
        (p.extractLsb' 16 8).toNat = s.params.rMax ∧ p.extractLsb' 24 8 = 0x01)

/-- 20_memory.md R50, and log entry 14: an address outside the window is not decoded; the block neither changes nor
answers. -/
def Obligations.OutsideTheWindowNothingHappens : Prop :=
  ∀ (s : State) (t : Transaction) (rest : List HostEvent), HostMoves s (.access t) rest →
    (t.addr < s.params.base ∨ s.params.base + 0x100000 ≤ t.addr) →
    ∃ w, step s = .next { s with host := rest, wait := w }

/-- 60_exceptions.md R239 and 70_reset_and_hazards.md R252: the idle block does nothing until a host event arrives.
-/
def Obligations.IdleBlockWaits : Prop :=
  ∀ s : State, s.busy = false → s.host = [] → step s = .next s

/-- 30_encoding.md R86, and log entry 15, the model's form of the loop: a poll reads, and comes again until the
masked data equals the value. -/
def Obligations.PollRepeatsUntilItsValue : Prop :=
  ∀ (s : State) (off : Nat) (mask value : Word) (rest : List HostEvent), off < 0x100000 → off % 4 = 0 →
    HostMoves s (.poll (s.params.base + off) mask value) rest →
    ∃ data w d, (s.busy = false → data = readWord s off) ∧ (off = 0xC → data = readWord s off) ∧
      step s = .next { answered (.read .okay data) rest w s with
        draws := d
        host := if data &&& mask = value then rest else s.host }

/-- 40_command_lifecycle.md R103 and 70_reset_and_hazards.md R258: unless a reset comes first, an accepted command
completes within its LATENCY, from the operands latched at its acceptance. The bound `s.wait`, the host events still
ordered before the completion, is the model's choice of how LATENCY is held and counted (log entry 2). A reset among the
events after those is allowed. -/
def Obligations.AcceptedCommandCompletes : Prop :=
  ∀ (s : State) (l : Latched), Inv s → s.latched = some l → (∀ x, HostEvent.reset x ∉ s.host.take s.wait) →
    ∃ (k : Nat) (u t : State), k ≤ s.wait ∧ Host.Core.run core k s = .next u ∧ u.busy = true ∧
      u.latched = some l ∧ u.mem = s.mem ∧ step u = exec (decodeOpcode l.op) u ∧ step u = .next t ∧
      t.busy = false ∧ t.latched = none ∧ t.lastOp = s.lastOp

/-- 30_encoding.md R85 and 44_engine.md R194: a command's outcome depends on the parameters and on the operands it
reads, and on nothing else: two completions that agree on those agree on status, lengths and, when they succeed, on
every byte of OUT and TRACE. -/
def Obligations.OutcomeDependsOnlyOnReadOperands : Prop :=
  ∀ (i : Instr) (s1 s2 : State), InProgress i s1 → InProgress i s2 → s1.params = s2.params →
    ((i = .derive ∨ i = .mix ∨ i = .encrypt ∨ i = .decrypt) →
      s1.keyLen = s2.keyLen ∧ ∀ k, k < s1.keyLen.toNat → s1.mem.read (keyBase + k) = s2.mem.read (keyBase + k)) →
    ((i = .derive ∨ i = .encrypt ∨ i = .decrypt) → s1.rounds = s2.rounds) →
    ((i = .encode ∨ i = .encrypt ∨ i = .decrypt) → s1.textLen = s2.textLen ∧
      ∀ k, k < s1.textLen.toNat → s1.mem.read (textInBase + k) = s2.mem.read (textInBase + k)) →
    ((i = .decode ∨ i = .mix) → s1.bitLen = s2.bitLen ∧ ∀ j, j < s1.bitLen.toNat →
      (s1.mem.read (textInBase + j / 8)).getLsbD (7 - j % 8) =
        (s2.mem.read (textInBase + j / 8)).getLsbD (7 - j % 8)) →
    ∃ t1 t2, exec i s1 = .next t1 ∧ exec i s2 = .next t2 ∧ t1.busy = false ∧ t2.busy = false ∧
      t1.done = t2.done ∧ t1.err = t2.err ∧ t1.errcode = t2.errcode ∧ t1.lastOp = t2.lastOp ∧
      statusWord t1 = statusWord t2 ∧ t1.outLen = t2.outLen ∧
      t1.outBits = t2.outBits ∧ t1.traceCount = t2.traceCount ∧
      (t1.done = true → ∀ a, inOutputs s1.params a = true → bufferByte t1 a = bufferByte t2 a)

/-- 30_encoding.md R87: the transactions of `loadtext` leave the text in TEXT_IN and its length in TEXT_LEN. -/
def Obligations.LoadtextLoadsTheText : Prop :=
  ∀ (s : State) (x : Text), Inv s → s.busy = false → 1 ≤ x.length → x.length ≤ s.params.nMax →
    s.host = expand s.params (.loadtext x) →
    ∃ t, Host.Core.run core s.host.length s = .next t ∧ t.busy = false ∧ t.host = [] ∧ t.inputText = x ∧
      t.textLen.toNat = x.length ∧ t.keyLen = s.keyLen ∧ t.keyText = s.keyText ∧ t.rounds = s.rounds ∧
      t.bitLen = s.bitLen

/-- 10_state.md R48: what a command leaves unchanged, at acceptance, at completion and otherwise. A command that
does not end DONE leaves OUT and TRACE. -/
def Obligations.CommandsKeepTheirInputs : Prop :=
  ∀ (i : Instr) (s t : State), s.params.legal = true → exec i s = .next t →
    KeepsInputs s t ∧ (t.mem ≠ s.mem → s.busy = true ∧ t.done = true) ∧ (s.busy = true → t.lastOp = s.lastOp) ∧
      (s.busy = false → t.outLen = s.outLen ∧ t.outBits = s.outBits ∧ t.traceCount = s.traceCount)

/-- 10_state.md R24 and 00_scope.md R4: no event changes a parameter. -/
def Obligations.StepKeepsParameters : Prop := ∀ s t : State, step s = .next t → t.params = s.params

/-- 10_state.md R41, R42 and R48: a byte of OUT or TRACE changes only when a command in progress ends DONE, or at a
reset. No host write changes it. -/
def Obligations.OnlySuccessOrResetWritesOutputs : Prop :=
  ∀ (s t : State) (a : Nat), Inv s → step s = .next t → inOutputs s.params a = true →
    bufferByte t a ≠ bufferByte s a →
    (s.busy = true ∧ t.busy = false ∧ t.done = true) ∨ ∃ x rest, s.host = .reset x :: rest

/-- 20_memory.md R54, R55, R59, R60 and R64: a legal read while idle is answered OKAY with the word at its offset and
has no effect. From offset 0x2C on each byte of that word is the buffer byte at its own offset where one is implemented
(TEXT_IN, KEY, OUT, TRACE), and 0 elsewhere. -/
def Obligations.IdleReadsAnswerTheCurrentWord : Prop :=
  ∀ (s : State) (off : Nat) (rest : List HostEvent), s.busy = false → off < 0x100000 → off % 4 = 0 →
    HostMoves s (.access (.memRead (s.params.base + off) 4)) rest →
    (∃ w, step s = .next (answered (.read .okay (readWord s off)) rest w s)) ∧
      (0x2C ≤ off → ∀ k, k < 4 → (readWord s off).extractLsb' (8 * k) 8 =
        if implemented s.params (off + k) then s.mem.read (off + k) else 0)

/-- 10_state.md R32 to R38 with 20_memory.md R54: the word at the offset of each length and count register holds its
field, with the reserved bits above it 0. -/
def Obligations.LengthRegisterWordsHoldTheirFields : Prop :=
  ∀ s : State,
    ((readWord s 0x10).extractLsb' 0 8 = s.rounds ∧ (readWord s 0x10).extractLsb' 8 24 = 0) ∧
    ((readWord s 0x14).extractLsb' 0 8 = s.textLen ∧ (readWord s 0x14).extractLsb' 8 24 = 0) ∧
    ((readWord s 0x18).extractLsb' 0 8 = s.keyLen ∧ (readWord s 0x18).extractLsb' 8 24 = 0) ∧
    ((readWord s 0x1C).extractLsb' 0 16 = s.bitLen ∧ (readWord s 0x1C).extractLsb' 16 16 = 0) ∧
    ((readWord s 0x20).extractLsb' 0 8 = s.outLen ∧ (readWord s 0x20).extractLsb' 8 24 = 0) ∧
    ((readWord s 0x24).extractLsb' 0 16 = s.outBits ∧ (readWord s 0x24).extractLsb' 16 16 = 0) ∧
    ((readWord s 0x28).extractLsb' 0 16 = s.traceCount ∧ (readWord s 0x28).extractLsb' 16 16 = 0)

/-- 30_encoding.md R86, and log entry 20, the model's form of the check: `rd OFF -> V` performs the read of `rd OFF`, and
its answer meets the statement exactly if its data is V; the answer of `rd OFF` meets it whatever its data is. While idle,
and for ID, PARAMS and STATUS at all times, the data is the word at the offset. -/
def Obligations.StatedReadIsMetByItsDataAlone : Prop :=
  ∀ (s : State) (off : Nat) (v : Word) (rest : List HostEvent), (HostStatement.rd off (some v)).wellFormed = true →
    ∃ e, expand s.params (.rd off (some v)) = [e] ∧ expand s.params (.rd off none) = [e] ∧
      (HostMoves s e rest → ∃ (data : Word) (w d : Nat),
        step s = .next { answered (.read .okay data) rest w s with draws := d } ∧
        (s.busy = false ∨ off = 0x0 ∨ off = 0x4 ∨ off = 0xC → data = readWord s off) ∧
        (programMet s.params [.rd off (some v)] [.read .okay data] = true ↔ data = v) ∧
        programMet s.params [.rd off none] [.read .okay data] = true)

/-- 30_encoding.md R86, and log entry 20, the model's form of the check: a program of `rd OFF -> V` lines, run while idle,
performs its reads in order, and is met by the answers it gets exactly if every V is the word at its offset. -/
def Obligations.ReadProgramIsMetByTheCurrentWords : Prop :=
  ∀ (s : State) (reads : List (Nat × Word)), s.busy = false →
    let program := reads.map fun x => HostStatement.rd x.1 (some x.2)
    (∀ st ∈ program, st.wellFormed = true) → s.host = expandProgram s.params program →
    ∃ (t : State) (answers : List Response), Host.Core.run core reads.length s = .next t ∧
      t.responses = answers.reverse ++ s.responses ∧ t.host = [] ∧ t.mem = s.mem ∧
      (∀ off, readWord t off = readWord s off) ∧
      (programMet s.params program answers = true ↔ ∀ x ∈ reads, readWord s x.1 = x.2)
end

