-- ==== Sys2Proof/Laws/BitStrings.lean ====
section
/-! SUPPORT. The laws of the codec's and the engine's pure functions: lengths, and each function bit by bit. -/

namespace Sys2Proof.Machine

@[simp] theorem length_bits8 (c : Byte) : (bits8 c).length = 8 := rfl

@[simp] theorem encodeText_nil : encodeText [] = [] := rfl

theorem encodeText_cons (c : Byte) (t : Text) : encodeText (c :: t) = bits8 c ++ encodeText t := rfl

@[simp] theorem length_encodeText (t : Text) : (encodeText t).length = 8 * t.length := by
  induction t with
  | nil => rfl
  | cons c t ih => simp [encodeText_cons, ih]; omega

theorem encodeText_append (t u : Text) : encodeText (t ++ u) = encodeText t ++ encodeText u := by
  simp [encodeText]

theorem getD_bits8 (c : Byte) (i : Nat) (h : i < 8) : (bits8 c).getD i false = c.getLsbD (7 - i) := by
  interval_cases i <;> rfl

theorem getD_encodeText (t : Text) (i : Nat) :
    (encodeText t).getD i false = (t.getD (i / 8) 0#8).getLsbD (7 - i % 8) := by
  induction t generalizing i with
  | nil => simp
  | cons c t ih =>
    rw [encodeText_cons]
    by_cases h : i < 8
    · rw [List.getD_append _ _ _ _ (by simpa using h), getD_bits8 c i h]
      simp [Nat.div_eq_of_lt h, Nat.mod_eq_of_lt h]
    · obtain ⟨k, rfl⟩ : ∃ k, i = k + 8 := ⟨i - 8, by omega⟩
      rw [List.getD_append_right _ _ _ _ (by simp)]
      simp only [length_bits8, Nat.add_sub_cancel, ih, Nat.add_mod_right]
      simp

theorem getLsbD_ofBits (b0 b1 b2 b3 b4 b5 b6 b7 : Bool) (j : Nat) (h : j < 8) :
    (BitVec.ofNat 8 (b0.toNat * 128 + b1.toNat * 64 + b2.toNat * 32 + b3.toNat * 16 + b4.toNat * 8 +
      b5.toNat * 4 + b6.toNat * 2 + b7.toNat)).getLsbD (7 - j) =
      [b0, b1, b2, b3, b4, b5, b6, b7].getD j false := by
  interval_cases j <;> revert b0 b1 b2 b3 b4 b5 b6 b7 <;> decide

/-- Bit `j` of the byte at `k`, counted from the most significant, is bit `8k + j` of the string. -/
theorem getLsbD_byteAt (s : BitString) (k j : Nat) (h : j < 8) :
    (byteAt s k).getLsbD (7 - j) = s.getD (8 * k + j) false := by
  rw [byteAt, getLsbD_ofBits _ _ _ _ _ _ _ _ j h]
  interval_cases j <;> rfl

theorem byte_ext {x y : Byte} (h : ∀ j, j < 8 → x.getLsbD (7 - j) = y.getLsbD (7 - j)) : x = y := by
  apply BitVec.eq_of_getLsbD_eq
  intro i hi
  have := h (7 - i) (by omega)
  rwa [show 7 - (7 - i) = i by omega] at this

@[simp] theorem length_packBits (s : BitString) : (packBits s).length = (s.length + 7) / 8 := by
  simp [packBits]

theorem getD_packBits (s : BitString) (k : Nat) : (packBits s).getD k 0#8 = byteAt s k := by
  by_cases h : k < (s.length + 7) / 8
  · simp [packBits, List.getD_eq_getElem?_getD, h]
  · rw [List.getD_eq_default _ _ (by simpa using Nat.le_of_not_lt h)]
    apply byte_ext
    intro j hj
    rw [getLsbD_byteAt s k j hj, List.getD_eq_default _ _ (by omega)]
    simp

theorem byteAt_encodeText (t : Text) (k : Nat) : byteAt (encodeText t) k = t.getD k 0#8 := by
  apply byte_ext
  intro j hj
  rw [getLsbD_byteAt _ _ _ hj, getD_encodeText, show (8 * k + j) / 8 = k by omega,
    show (8 * k + j) % 8 = j by omega]

theorem text_ext {t u : Text} (hl : t.length = u.length) (h : ∀ k, k < t.length → t.getD k 0#8 = u.getD k 0#8) :
    t = u := by
  apply List.ext_getElem hl
  intro k h1 h2
  simpa [List.getD_eq_getElem?_getD, h1, h2] using h k h1

theorem bits_ext {s t : BitString} (hl : s.length = t.length)
    (h : ∀ k, k < s.length → s.getD k false = t.getD k false) : s = t := by
  apply List.ext_getElem hl
  intro k h1 h2
  simpa [List.getD_eq_getElem?_getD, h1, h2] using h k h1

@[simp] theorem packBits_encodeText (t : Text) : packBits (encodeText t) = t := by
  apply text_ext
  · simp; omega
  · intro k _
    rw [getD_packBits, byteAt_encodeText]

@[simp] theorem length_bitsOf (b : Text) (n : Nat) : (bitsOf b n).length = n := by simp [bitsOf]

theorem getD_bitsOf (b : Text) (n i : Nat) (h : i < n) :
    (bitsOf b n).getD i false = (b.getD (i / 8) 0#8).getLsbD (7 - i % 8) := by
  simp [bitsOf, List.getD_eq_getElem?_getD, h]

theorem decodeBits_ok {s : BitString} (h : s.length % 8 = 0) : decodeBits s = .ok (packBits s) := by
  have : s.length / 8 = (s.length + 7) / 8 := by omega
  simp [decodeBits, h, packBits, this]

@[simp] theorem length_xorBits (s t : BitString) (h : s.length = t.length) : (xorBits s t).length = s.length := by
  simp [xorBits, h]

theorem getD_xorBits (s t : BitString) (h : s.length = t.length) (i : Nat) :
    (xorBits s t).getD i false = xor (s.getD i false) (t.getD i false) := by
  by_cases hi : i < s.length
  · have hj : i < t.length := by omega
    simp [xorBits, List.getD_eq_getElem?_getD, hi, hj]
  · have hj : ¬ i < t.length := by omega
    rw [List.getD_eq_default _ _ (by simp [xorBits]; omega), List.getD_eq_default _ _ (by omega),
      List.getD_eq_default _ _ (by omega)]
    rfl

@[simp] theorem length_mixBits (x : BitString) (kt : Text) : (mixBits x kt).length = x.length := by simp [mixBits]

/-- The key stream of `mix`, which does not depend on its input. -/
def keyStream (kt : Text) (i : Nat) : Bool :=
  xor ((encodeText kt).getD (i % (8 * kt.length)) false) (decide (i % 2 = 1))

theorem getD_mixBits (x : BitString) (kt : Text) (i : Nat) (h : i < x.length) :
    (mixBits x kt).getD i false = xor (x.getD i false) (keyStream kt i) := by
  simp [mixBits, keyStream, List.getD_eq_getElem?_getD, h]

@[simp] theorem length_rotate (k : Text) (a : Nat) : (rotate k a).length = k.length := by
  simp [rotate]; omega

theorem length_formBlock (t : Text) :
    (formBlock t).left.length = 4 * t.length ∧ (formBlock t).right.length = 4 * t.length := by
  have : ¬ (8 * t.length) % 2 = 1 := by omega
  simp [formBlock, padBits, splitBits, this]
  omega

theorem bits_formBlock (t : Text) : (formBlock t).bits = encodeText t := by
  have : ¬ (8 * t.length) % 2 = 1 := by omega
  simp [formBlock, padBits, splitBits, Block.bits, this]

/-- Both halves of a block have `h` bits. -/
def Block.Halves (b : Block) (h : Nat) : Prop := b.left.length = h ∧ b.right.length = h

theorem Block.Halves.length_bits {b : Block} {h : Nat} (hb : b.Halves h) : b.bits.length = 2 * h := by
  simp [Block.bits, hb.1, hb.2]; omega

theorem encRound_halves {k : Text} {r h : Nat} {b : Block} (hb : b.Halves h) : (encRound k r b).post.Halves h := by
  refine ⟨hb.2, ?_⟩
  simp [encRound, xorBits, hb.1, hb.2]

theorem decRound_halves {k : Text} {j r h : Nat} {b : Block} (hb : b.Halves h) :
    (decRound k j r b).post.Halves h := by
  refine ⟨?_, hb.1⟩
  simp [decRound, xorBits, hb.1, hb.2]

theorem encBlock_halves {k : Text} {h : Nat} {b : Block} (hb : b.Halves h) (n : Nat) :
    (encBlock k b n).Halves h := by
  induction n with
  | zero => exact hb
  | succ n ih => exact encRound_halves ih

theorem decBlock_halves {k : Text} {n h : Nat} {b : Block} (hb : b.Halves h) (j : Nat) :
    (decBlock k n b j).Halves h := by
  induction j with
  | zero => exact hb
  | succ j ih => exact decRound_halves ih

theorem formBlock_halves (t : Text) : (formBlock t).Halves (4 * t.length) := length_formBlock t

end Sys2Proof.Machine
end

