-- ==== Sys2Proof/Laws/State.lean ====
section
/-! SUPPORT. One lemma per field per state update of Machine/Flags.lean and Machine/Ops.lean, so that no later proof
unfolds a record update. -/

namespace Sys2Proof.Machine

@[simp] theorem setAccepted_params (op : BitVec 4) (s : State) : (setAccepted op s).params = s.params := rfl
@[simp] theorem setAccepted_busy (op : BitVec 4) (s : State) : (setAccepted op s).busy = true := rfl
@[simp] theorem setAccepted_done (op : BitVec 4) (s : State) : (setAccepted op s).done = false := rfl
@[simp] theorem setAccepted_err (op : BitVec 4) (s : State) : (setAccepted op s).err = false := rfl
@[simp] theorem setAccepted_errcode (op : BitVec 4) (s : State) : (setAccepted op s).errcode = 0 := rfl
@[simp] theorem setAccepted_lastOp (op : BitVec 4) (s : State) : (setAccepted op s).lastOp = op := rfl
@[simp] theorem setAccepted_rounds (op : BitVec 4) (s : State) : (setAccepted op s).rounds = s.rounds := rfl
@[simp] theorem setAccepted_textLen (op : BitVec 4) (s : State) : (setAccepted op s).textLen = s.textLen := rfl
@[simp] theorem setAccepted_keyLen (op : BitVec 4) (s : State) : (setAccepted op s).keyLen = s.keyLen := rfl
@[simp] theorem setAccepted_bitLen (op : BitVec 4) (s : State) : (setAccepted op s).bitLen = s.bitLen := rfl
@[simp] theorem setAccepted_outLen (op : BitVec 4) (s : State) : (setAccepted op s).outLen = s.outLen := rfl
@[simp] theorem setAccepted_outBits (op : BitVec 4) (s : State) : (setAccepted op s).outBits = s.outBits := rfl
@[simp] theorem setAccepted_traceCount (op : BitVec 4) (s : State) : (setAccepted op s).traceCount = s.traceCount := rfl
@[simp] theorem setAccepted_mem (op : BitVec 4) (s : State) : (setAccepted op s).mem = s.mem := rfl
@[simp] theorem setAccepted_latched (op : BitVec 4) (s : State) : (setAccepted op s).latched = s.latched := rfl
@[simp] theorem setAccepted_host (op : BitVec 4) (s : State) : (setAccepted op s).host = s.host := rfl
@[simp] theorem setAccepted_responses (op : BitVec 4) (s : State) : (setAccepted op s).responses = s.responses := rfl
@[simp] theorem setAccepted_wait (op : BitVec 4) (s : State) : (setAccepted op s).wait = s.wait := rfl
@[simp] theorem setAccepted_draws (op : BitVec 4) (s : State) : (setAccepted op s).draws = s.draws := rfl

@[simp] theorem setDone_params (s : State) : (setDone s).params = s.params := rfl
@[simp] theorem setDone_busy (s : State) : (setDone s).busy = false := rfl
@[simp] theorem setDone_done (s : State) : (setDone s).done = true := rfl
@[simp] theorem setDone_err (s : State) : (setDone s).err = false := rfl
@[simp] theorem setDone_errcode (s : State) : (setDone s).errcode = 0 := rfl
@[simp] theorem setDone_lastOp (s : State) : (setDone s).lastOp = s.lastOp := rfl
@[simp] theorem setDone_rounds (s : State) : (setDone s).rounds = s.rounds := rfl
@[simp] theorem setDone_textLen (s : State) : (setDone s).textLen = s.textLen := rfl
@[simp] theorem setDone_keyLen (s : State) : (setDone s).keyLen = s.keyLen := rfl
@[simp] theorem setDone_bitLen (s : State) : (setDone s).bitLen = s.bitLen := rfl
@[simp] theorem setDone_outLen (s : State) : (setDone s).outLen = s.outLen := rfl
@[simp] theorem setDone_outBits (s : State) : (setDone s).outBits = s.outBits := rfl
@[simp] theorem setDone_traceCount (s : State) : (setDone s).traceCount = s.traceCount := rfl
@[simp] theorem setDone_mem (s : State) : (setDone s).mem = s.mem := rfl
@[simp] theorem setDone_latched (s : State) : (setDone s).latched = s.latched := rfl
@[simp] theorem setDone_host (s : State) : (setDone s).host = s.host := rfl
@[simp] theorem setDone_responses (s : State) : (setDone s).responses = s.responses := rfl
@[simp] theorem setDone_wait (s : State) : (setDone s).wait = s.wait := rfl
@[simp] theorem setDone_draws (s : State) : (setDone s).draws = s.draws := rfl

@[simp] theorem setFailed_params (e : ErrorCode) (s : State) : (setFailed e s).params = s.params := rfl
@[simp] theorem setFailed_busy (e : ErrorCode) (s : State) : (setFailed e s).busy = false := rfl
@[simp] theorem setFailed_done (e : ErrorCode) (s : State) : (setFailed e s).done = false := rfl
@[simp] theorem setFailed_err (e : ErrorCode) (s : State) : (setFailed e s).err = true := rfl
@[simp] theorem setFailed_errcode (e : ErrorCode) (s : State) : (setFailed e s).errcode = e.code := rfl
@[simp] theorem setFailed_lastOp (e : ErrorCode) (s : State) : (setFailed e s).lastOp = s.lastOp := rfl
@[simp] theorem setFailed_rounds (e : ErrorCode) (s : State) : (setFailed e s).rounds = s.rounds := rfl
@[simp] theorem setFailed_textLen (e : ErrorCode) (s : State) : (setFailed e s).textLen = s.textLen := rfl
@[simp] theorem setFailed_keyLen (e : ErrorCode) (s : State) : (setFailed e s).keyLen = s.keyLen := rfl
@[simp] theorem setFailed_bitLen (e : ErrorCode) (s : State) : (setFailed e s).bitLen = s.bitLen := rfl
@[simp] theorem setFailed_outLen (e : ErrorCode) (s : State) : (setFailed e s).outLen = s.outLen := rfl
@[simp] theorem setFailed_outBits (e : ErrorCode) (s : State) : (setFailed e s).outBits = s.outBits := rfl
@[simp] theorem setFailed_traceCount (e : ErrorCode) (s : State) : (setFailed e s).traceCount = s.traceCount := rfl
@[simp] theorem setFailed_mem (e : ErrorCode) (s : State) : (setFailed e s).mem = s.mem := rfl
@[simp] theorem setFailed_latched (e : ErrorCode) (s : State) : (setFailed e s).latched = s.latched := rfl
@[simp] theorem setFailed_host (e : ErrorCode) (s : State) : (setFailed e s).host = s.host := rfl
@[simp] theorem setFailed_responses (e : ErrorCode) (s : State) : (setFailed e s).responses = s.responses := rfl
@[simp] theorem setFailed_wait (e : ErrorCode) (s : State) : (setFailed e s).wait = s.wait := rfl
@[simp] theorem setFailed_draws (e : ErrorCode) (s : State) : (setFailed e s).draws = s.draws := rfl

@[simp] theorem accept_params (op : BitVec 4) (s : State) : (accept op s).params = s.params := rfl
@[simp] theorem accept_busy (op : BitVec 4) (s : State) : (accept op s).busy = true := rfl
@[simp] theorem accept_done (op : BitVec 4) (s : State) : (accept op s).done = false := rfl
@[simp] theorem accept_err (op : BitVec 4) (s : State) : (accept op s).err = false := rfl
@[simp] theorem accept_errcode (op : BitVec 4) (s : State) : (accept op s).errcode = 0 := rfl
@[simp] theorem accept_lastOp (op : BitVec 4) (s : State) : (accept op s).lastOp = op := rfl
@[simp] theorem accept_rounds (op : BitVec 4) (s : State) : (accept op s).rounds = s.rounds := rfl
@[simp] theorem accept_textLen (op : BitVec 4) (s : State) : (accept op s).textLen = s.textLen := rfl
@[simp] theorem accept_keyLen (op : BitVec 4) (s : State) : (accept op s).keyLen = s.keyLen := rfl
@[simp] theorem accept_bitLen (op : BitVec 4) (s : State) : (accept op s).bitLen = s.bitLen := rfl
@[simp] theorem accept_outLen (op : BitVec 4) (s : State) : (accept op s).outLen = s.outLen := rfl
@[simp] theorem accept_outBits (op : BitVec 4) (s : State) : (accept op s).outBits = s.outBits := rfl
@[simp] theorem accept_traceCount (op : BitVec 4) (s : State) : (accept op s).traceCount = s.traceCount := rfl
@[simp] theorem accept_mem (op : BitVec 4) (s : State) : (accept op s).mem = s.mem := rfl
@[simp] theorem accept_latched (op : BitVec 4) (s : State) : (accept op s).latched = some (latchOperands op s) := rfl
@[simp] theorem accept_host (op : BitVec 4) (s : State) : (accept op s).host = s.host := rfl
@[simp] theorem accept_responses (op : BitVec 4) (s : State) : (accept op s).responses = s.responses := rfl
@[simp] theorem accept_wait (op : BitVec 4) (s : State) : (accept op s).wait = Config.latency s.draws := rfl
@[simp] theorem accept_draws (op : BitVec 4) (s : State) : (accept op s).draws = s.draws + 1 := rfl

@[simp] theorem completeOk_params (r : Result) (s : State) : (completeOk r s).params = s.params := rfl
@[simp] theorem completeOk_busy (r : Result) (s : State) : (completeOk r s).busy = false := rfl
@[simp] theorem completeOk_done (r : Result) (s : State) : (completeOk r s).done = true := rfl
@[simp] theorem completeOk_err (r : Result) (s : State) : (completeOk r s).err = false := rfl
@[simp] theorem completeOk_errcode (r : Result) (s : State) : (completeOk r s).errcode = 0 := rfl
@[simp] theorem completeOk_lastOp (r : Result) (s : State) : (completeOk r s).lastOp = s.lastOp := rfl
@[simp] theorem completeOk_rounds (r : Result) (s : State) : (completeOk r s).rounds = s.rounds := rfl
@[simp] theorem completeOk_textLen (r : Result) (s : State) : (completeOk r s).textLen = s.textLen := rfl
@[simp] theorem completeOk_keyLen (r : Result) (s : State) : (completeOk r s).keyLen = s.keyLen := rfl
@[simp] theorem completeOk_bitLen (r : Result) (s : State) : (completeOk r s).bitLen = s.bitLen := rfl
@[simp] theorem completeOk_outLen (r : Result) (s : State) : (completeOk r s).outLen =
  BitVec.ofNat 8 (packBits r.bits).length := rfl
@[simp] theorem completeOk_outBits (r : Result) (s : State) : (completeOk r s).outBits =
  BitVec.ofNat 16 r.bits.length := rfl
@[simp] theorem completeOk_traceCount (r : Result) (s : State) : (completeOk r s).traceCount =
  BitVec.ofNat 16 r.records.length := rfl
@[simp] theorem completeOk_mem (r : Result) (s : State) : (completeOk r s).mem = s.mem.replaceOutputs
      (outCells s.params (packBits r.bits) ++ traceCells s.params r.records) := rfl
@[simp] theorem completeOk_latched (r : Result) (s : State) : (completeOk r s).latched = none := rfl
@[simp] theorem completeOk_host (r : Result) (s : State) : (completeOk r s).host = s.host := rfl
@[simp] theorem completeOk_responses (r : Result) (s : State) : (completeOk r s).responses = s.responses := rfl
@[simp] theorem completeOk_wait (r : Result) (s : State) : (completeOk r s).wait = s.wait := rfl
@[simp] theorem completeOk_draws (r : Result) (s : State) : (completeOk r s).draws = s.draws := rfl

@[simp] theorem raiseError_params (e : ErrorCode) (s : State) : (raiseError e s).params = s.params := rfl
@[simp] theorem raiseError_busy (e : ErrorCode) (s : State) : (raiseError e s).busy = false := rfl
@[simp] theorem raiseError_done (e : ErrorCode) (s : State) : (raiseError e s).done = false := rfl
@[simp] theorem raiseError_err (e : ErrorCode) (s : State) : (raiseError e s).err = true := rfl
@[simp] theorem raiseError_errcode (e : ErrorCode) (s : State) : (raiseError e s).errcode = e.code := rfl
@[simp] theorem raiseError_lastOp (e : ErrorCode) (s : State) : (raiseError e s).lastOp = s.lastOp := rfl
@[simp] theorem raiseError_rounds (e : ErrorCode) (s : State) : (raiseError e s).rounds = s.rounds := rfl
@[simp] theorem raiseError_textLen (e : ErrorCode) (s : State) : (raiseError e s).textLen = s.textLen := rfl
@[simp] theorem raiseError_keyLen (e : ErrorCode) (s : State) : (raiseError e s).keyLen = s.keyLen := rfl
@[simp] theorem raiseError_bitLen (e : ErrorCode) (s : State) : (raiseError e s).bitLen = s.bitLen := rfl
@[simp] theorem raiseError_outLen (e : ErrorCode) (s : State) : (raiseError e s).outLen = 0 := rfl
@[simp] theorem raiseError_outBits (e : ErrorCode) (s : State) : (raiseError e s).outBits = 0 := rfl
@[simp] theorem raiseError_traceCount (e : ErrorCode) (s : State) : (raiseError e s).traceCount = 0 := rfl
@[simp] theorem raiseError_mem (e : ErrorCode) (s : State) : (raiseError e s).mem = s.mem := rfl
@[simp] theorem raiseError_latched (e : ErrorCode) (s : State) : (raiseError e s).latched = none := rfl
@[simp] theorem raiseError_host (e : ErrorCode) (s : State) : (raiseError e s).host = s.host := rfl
@[simp] theorem raiseError_responses (e : ErrorCode) (s : State) : (raiseError e s).responses = s.responses := rfl
@[simp] theorem raiseError_wait (e : ErrorCode) (s : State) : (raiseError e s).wait = s.wait := rfl
@[simp] theorem raiseError_draws (e : ErrorCode) (s : State) : (raiseError e s).draws = s.draws := rfl

@[simp] theorem resetBlock_params (s : State) : (resetBlock s).params = s.params := rfl
@[simp] theorem resetBlock_busy (s : State) : (resetBlock s).busy = false := rfl
@[simp] theorem resetBlock_done (s : State) : (resetBlock s).done = false := rfl
@[simp] theorem resetBlock_err (s : State) : (resetBlock s).err = false := rfl
@[simp] theorem resetBlock_errcode (s : State) : (resetBlock s).errcode = 0 := rfl
@[simp] theorem resetBlock_lastOp (s : State) : (resetBlock s).lastOp = 0 := rfl
@[simp] theorem resetBlock_rounds (s : State) : (resetBlock s).rounds = 0 := rfl
@[simp] theorem resetBlock_textLen (s : State) : (resetBlock s).textLen = 0 := rfl
@[simp] theorem resetBlock_keyLen (s : State) : (resetBlock s).keyLen = 0 := rfl
@[simp] theorem resetBlock_bitLen (s : State) : (resetBlock s).bitLen = 0 := rfl
@[simp] theorem resetBlock_outLen (s : State) : (resetBlock s).outLen = 0 := rfl
@[simp] theorem resetBlock_outBits (s : State) : (resetBlock s).outBits = 0 := rfl
@[simp] theorem resetBlock_traceCount (s : State) : (resetBlock s).traceCount = 0 := rfl
@[simp] theorem resetBlock_mem (s : State) : (resetBlock s).mem = Memory.atReset s.params s.draws := rfl
@[simp] theorem resetBlock_latched (s : State) : (resetBlock s).latched = none := rfl
@[simp] theorem resetBlock_host (s : State) : (resetBlock s).host = s.host := rfl
@[simp] theorem resetBlock_responses (s : State) : (resetBlock s).responses = s.responses := rfl
@[simp] theorem resetBlock_wait (s : State) : (resetBlock s).wait = 0 := rfl
@[simp] theorem resetBlock_draws (s : State) : (resetBlock s).draws = s.draws + 1 := rfl

@[simp] theorem respond_params (r : Response) (s : State) : (respond r s).params = s.params := rfl
@[simp] theorem respond_busy (r : Response) (s : State) : (respond r s).busy = s.busy := rfl
@[simp] theorem respond_done (r : Response) (s : State) : (respond r s).done = s.done := rfl
@[simp] theorem respond_err (r : Response) (s : State) : (respond r s).err = s.err := rfl
@[simp] theorem respond_errcode (r : Response) (s : State) : (respond r s).errcode = s.errcode := rfl
@[simp] theorem respond_lastOp (r : Response) (s : State) : (respond r s).lastOp = s.lastOp := rfl
@[simp] theorem respond_rounds (r : Response) (s : State) : (respond r s).rounds = s.rounds := rfl
@[simp] theorem respond_textLen (r : Response) (s : State) : (respond r s).textLen = s.textLen := rfl
@[simp] theorem respond_keyLen (r : Response) (s : State) : (respond r s).keyLen = s.keyLen := rfl
@[simp] theorem respond_bitLen (r : Response) (s : State) : (respond r s).bitLen = s.bitLen := rfl
@[simp] theorem respond_outLen (r : Response) (s : State) : (respond r s).outLen = s.outLen := rfl
@[simp] theorem respond_outBits (r : Response) (s : State) : (respond r s).outBits = s.outBits := rfl
@[simp] theorem respond_traceCount (r : Response) (s : State) : (respond r s).traceCount = s.traceCount := rfl
@[simp] theorem respond_mem (r : Response) (s : State) : (respond r s).mem = s.mem := rfl
@[simp] theorem respond_latched (r : Response) (s : State) : (respond r s).latched = s.latched := rfl
@[simp] theorem respond_host (r : Response) (s : State) : (respond r s).host = s.host := rfl
@[simp] theorem respond_responses (r : Response) (s : State) : (respond r s).responses = r :: s.responses := rfl
@[simp] theorem respond_wait (r : Response) (s : State) : (respond r s).wait = s.wait := rfl
@[simp] theorem respond_draws (r : Response) (s : State) : (respond r s).draws = s.draws := rfl

end Sys2Proof.Machine
end

