-- ==== Sys2Proof/Laws/Memory.lean ====
section
/-! SUPPORT. The laws of the buffers: what a read gives after each memory operation, and that each operation
keeps the canonical form. -/

namespace Sys2Proof.Machine

theorem lookup_append (xs ys : List Host.Cell) (a : Nat) :
    lookup (xs ++ ys) a = (lookup xs a).or (lookup ys a) := by
  induction xs with
  | nil => simp [lookup]
  | cons c t ih =>
    by_cases h : c.1 = a <;> simp [lookup, h, ih]

theorem lookup_eq_none {xs : List Host.Cell} {a : Nat} (h : ∀ c ∈ xs, c.1 ≠ a) : lookup xs a = none := by
  induction xs with
  | nil => rfl
  | cons c t ih =>
    have hc : c.1 ≠ a := h c (by simp)
    simp [lookup, hc, ih (fun d hd => h d (by simp [hd]))]

theorem lookup_filter (q : Nat → Bool) (xs : List Host.Cell) (a : Nat) :
    lookup (xs.filter fun c => q c.1) a = if q a then lookup xs a else none := by
  induction xs with
  | nil => simp [lookup]
  | cons c t ih =>
    by_cases hc : c.1 = a
    · subst hc
      by_cases hq : q c.1 <;> simp [List.filter, lookup, hq, ih]
    · by_cases hq : q c.1 <;> simp [List.filter, lookup, hq, hc, ih]

/-- The byte a list of cells holds at an offset, 0 where it lists none. -/
def cellByte (xs : List Host.Cell) (a : Nat) : Byte := (lookup xs a).getD 0#8

theorem cellByte_append_left {xs ys : List Host.Cell} {a : Nat} (h : ∀ c ∈ ys, c.1 ≠ a) :
    cellByte (xs ++ ys) a = cellByte xs a := by
  simp [cellByte, lookup_append, lookup_eq_none h]

theorem cellByte_append_right {xs ys : List Host.Cell} {a : Nat} (h : ∀ c ∈ xs, c.1 ≠ a) :
    cellByte (xs ++ ys) a = cellByte ys a := by
  simp [cellByte, lookup_append, lookup_eq_none h]

theorem cellByte_eq_zero {xs : List Host.Cell} {a : Nat} (h : ∀ c ∈ xs, c.1 ≠ a) : cellByte xs a = 0#8 := by
  simp [cellByte, lookup_eq_none h]

theorem mem_cellOf {a : Nat} {v : Byte} {c : Host.Cell} (h : c ∈ cellOf a v) :
    c.1 = a ∧ c.2 = v ∧ v ≠ 0#8 := by
  by_cases hv : v = 0#8
  · simp [cellOf, hv] at h
  · simp [cellOf, hv] at h
    simp [h, hv]

theorem cellByte_cellOf (a b : Nat) (v : Byte) : cellByte (cellOf b v) a = if b = a then v else 0#8 := by
  by_cases hv : v = 0#8
  · simp [cellByte, cellOf, hv, lookup]
  · by_cases hb : b = a <;> simp [cellByte, cellOf, hv, lookup, hb]

theorem mem_cellsAt {vs : Text} {b : Nat} {c : Host.Cell} (h : c ∈ cellsAt b vs) :
    b ≤ c.1 ∧ c.1 < b + vs.length ∧ c.2 ≠ 0#8 := by
  induction vs generalizing b with
  | nil => simp [cellsAt] at h
  | cons v t ih =>
    rcases List.mem_append.1 h with h | h
    · obtain ⟨h1, h2, h3⟩ := mem_cellOf h
      simp [h1, h2, h3]
    · obtain ⟨h1, h2, h3⟩ := ih h
      simp only [List.length_cons]
      exact ⟨by omega, by omega, h3⟩

theorem cellByte_cellsAt (vs : Text) (b a : Nat) (h : b ≤ a) :
    cellByte (cellsAt b vs) a = vs.getD (a - b) 0#8 := by
  induction vs generalizing b with
  | nil => simp [cellsAt, cellByte, lookup]
  | cons v t ih =>
    rcases Nat.eq_or_lt_of_le h with hb | hb
    · subst hb
      have : ∀ c ∈ cellsAt (b + 1) t, c.1 ≠ b := fun c hc => by have := mem_cellsAt hc; omega
      simp [cellsAt, cellByte_append_left this, cellByte_cellOf]
    · have : ∀ c ∈ cellOf b v, c.1 ≠ a := fun c hc => by have := mem_cellOf hc; omega
      rw [cellsAt, cellByte_append_right this, ih (b + 1) hb]
      obtain ⟨k, rfl⟩ : ∃ k, a = b + 1 + k := ⟨a - (b + 1), by omega⟩
      have h1 : b + 1 + k - b = k + 1 := by omega
      have h2 : b + 1 + k - (b + 1) = k := by omega
      simp [h1, h2]

theorem pairwise_cellOf (a : Nat) (v : Byte) : (cellOf a v).Pairwise (fun c d => c.1 < d.1) := by
  by_cases hv : v = 0#8 <;> simp [cellOf, hv]

theorem pairwise_cellsAt (vs : Text) (b : Nat) : (cellsAt b vs).Pairwise (fun c d => c.1 < d.1) := by
  induction vs generalizing b with
  | nil => simp [cellsAt]
  | cons v t ih =>
    refine List.pairwise_append.2 ⟨pairwise_cellOf b v, ih (b + 1), fun c hc d hd => ?_⟩
    have := mem_cellOf hc
    have := mem_cellsAt hd
    omega

/-- What a byte store does to every read: the stored byte is read back and no other byte changes. -/
theorem Memory.read_write {m : Memory} {a : Nat} (v : Byte) (ha : a < outBase) (b : Nat) :
    (m.write a v).read b = if b = a then v else m.read b := by
  have hl := lookup_filter (fun c => decide (c < a)) m.cells b
  have hr := lookup_filter (fun c => decide (a < c)) m.cells b
  have hm := cellByte_cellOf b a v
  by_cases hab : b = a
  · subst hab
    have hf : (m.write b v).isFresh b = false := by
      simp [Memory.isFresh, Memory.write]; omega
    simp only [decide_eq_true_eq] at hl hr
    have hu : (m.write b v).unlisted b = 0#8 := by simp [Memory.unlisted, hf]
    simp only [Memory.read, hu]
    simp only [cellByte] at hm
    simpa [Memory.write, lookup_append, hl, hr] using hm
  · have hn : lookup (cellOf a v) b = none := lookup_eq_none (fun c hc => by
      have := mem_cellOf hc; omega)
    have hf : (m.write a v).isFresh b = m.isFresh b := by
      simp [Memory.isFresh, Memory.write, hab]
    have hu : (m.write a v).unlisted b = m.unlisted b := by
      simp [Memory.unlisted, hf]; rfl
    simp only [decide_eq_true_eq] at hl hr
    simp only [Memory.read, hu]
    simp only [Memory.write, lookup_append, hl, hr, hn, hab, if_false]
    rcases Nat.lt_or_gt_of_ne hab with h | h
    · have h' : ¬ a < b := by omega
      simp [h, h']
    · have h' : ¬ b < a := by omega
      simp [h, h']

/-- What replacing OUT and TRACE does to every read. -/
theorem Memory.read_replaceOutputs {m : Memory} {out : List Host.Cell} (ho : ∀ c ∈ out, outBase ≤ c.1)
    (a : Nat) : (m.replaceOutputs out).read a = if a < outBase then m.read a else cellByte out a := by
  have hl := lookup_filter (fun c => decide (c < outBase)) m.cells a
  simp only [decide_eq_true_eq] at hl
  by_cases ha : a < outBase
  · have hn : lookup out a = none := lookup_eq_none (fun c hc => by have := ho c hc; omega)
    have hf : (m.replaceOutputs out).isFresh a = m.isFresh a := by
      have : ¬ outBase ≤ a := by omega
      simp [Memory.isFresh, Memory.replaceOutputs, ha, this]
    have hu : (m.replaceOutputs out).unlisted a = m.unlisted a := by
      simp [Memory.unlisted, hf]; rfl
    simp only [Memory.read, hu]
    simp [Memory.replaceOutputs, lookup_append, hl, hn, ha]
  · have hf : (m.replaceOutputs out).isFresh a = false := by
      simp [Memory.isFresh, Memory.replaceOutputs]; omega
    simp only [Memory.read, Memory.unlisted, hf]
    simp [Memory.replaceOutputs, lookup_append, hl, ha, cellByte]

/-- After a reset every implemented byte reads that reset's draw. -/
theorem Memory.read_atReset {p : Params} (e : Nat) {a : Nat} (h : implemented p a = true) :
    (Memory.atReset p e).read a = Config.resetByte e a := by
  have hf : (Memory.atReset p e).isFresh a = true := by
    simp only [implemented, inInputs, inOutputs, inTextIn, inKey, inOut, inTrace, Bool.or_eq_true,
      Bool.and_eq_true, decide_eq_true_eq] at h
    simp only [Memory.isFresh, Memory.atReset, List.mem_append, List.mem_range'_1, Bool.or_eq_true,
      Bool.true_and, decide_eq_true_eq]
    have : outBase ≤ traceBase := by decide
    omega
  simp [Memory.read, Memory.unlisted, hf]
  simp [Memory.atReset, lookup]

theorem inInputs_iff {p : Params} {a : Nat} : inInputs p a = true ↔
    (0x100 ≤ a ∧ a < 0x100 + p.nMax) ∨ (0x200 ≤ a ∧ a < 0x200 + p.kMax) := by
  simp only [inInputs, inTextIn, inKey, Bool.or_eq_true, Bool.and_eq_true, decide_eq_true_eq]
  exact Iff.rfl

theorem inOutputs_iff {p : Params} {a : Nat} : inOutputs p a = true ↔
    (0x300 ≤ a ∧ a < 0x300 + outMax p) ∨ (0x10000 ≤ a ∧ a < 0x10000 + 0x800 * traceRecords p) := by
  simp only [inOutputs, inOut, inTrace, Bool.or_eq_true, Bool.and_eq_true, decide_eq_true_eq]
  exact Iff.rfl

theorem params_legal_iff {p : Params} : p.legal = true ↔
    1 ≤ p.nMax ∧ p.nMax ≤ 255 ∧ 1 ≤ p.kMax ∧ p.kMax ≤ 252 ∧ 1 ≤ p.rMax ∧ p.rMax ≤ 255 ∧
      p.base % 0x100000 = 0 := by
  simp only [Params.legal, Bool.and_eq_true, decide_eq_true_eq, and_assoc]

theorem Memory.wf_iff {p : Params} {m : Memory} : m.wf p = true ↔
    m.cells.Pairwise (fun c d => c.1 < d.1) ∧
      (∀ c ∈ m.cells, implemented p c.1 = true ∧ m.isFresh c.1 = false ∧ c.2 ≠ 0#8) ∧
      m.fresh.Pairwise (fun a b => a < b) ∧ ∀ a ∈ m.fresh, inInputs p a = true := by
  simp only [Memory.wf, Bool.and_eq_true, List.all_eq_true, decide_eq_true_eq, Bool.not_eq_true', and_assoc]

theorem inInputs_lt_outBase {p : Params} (hp : p.legal = true) {a : Nat} (h : inInputs p a = true) :
    a < outBase := by
  have := params_legal_iff.1 hp
  have := inInputs_iff.1 h
  simp only [outBase]
  omega

theorem inOutputs_ge_outBase {p : Params} {a : Nat} (h : inOutputs p a = true) : outBase ≤ a := by
  have := inOutputs_iff.1 h
  simp only [outBase]
  omega

theorem Memory.wf_atReset {p : Params} (hp : p.legal = true) (e : Nat) : (Memory.atReset p e).wf p = true := by
  have hl := params_legal_iff.1 hp
  refine Memory.wf_iff.2 ⟨by simp [Memory.atReset], by simp [Memory.atReset], ?_, ?_⟩
  · refine List.pairwise_append.2 ⟨List.pairwise_lt_range', List.pairwise_lt_range', ?_⟩
    intro a ha b hb
    simp only [List.mem_range'_1, textInBase, keyBase] at ha hb
    omega
  · intro a ha
    simp only [Memory.atReset, List.mem_append, List.mem_range'_1, textInBase, keyBase] at ha
    exact inInputs_iff.2 ha

theorem Memory.isFresh_eq_false {m : Memory} {a : Nat} :
    m.isFresh a = false ↔ a ∉ m.fresh ∧ (m.outFresh = true → a < outBase) := by
  cases h : m.outFresh <;> simp [Memory.isFresh, h]

theorem Memory.wf_write {p : Params} {m : Memory} (hp : p.legal = true) (hm : m.wf p = true) {a : Nat}
    (ha : inInputs p a = true) (v : Byte) : (m.write a v).wf p = true := by
  obtain ⟨h1, h2, h3, h4⟩ := Memory.wf_iff.1 hm
  have hlt := inInputs_lt_outBase hp ha
  refine Memory.wf_iff.2 ⟨?_, ?_, h3.filter _, fun b hb => h4 b (List.mem_of_mem_filter hb)⟩
  · refine List.pairwise_append.2 ⟨List.pairwise_append.2 ⟨h1.filter _, pairwise_cellOf a v, ?_⟩,
      h1.filter _, ?_⟩
    · intro c hc d hd
      have := List.mem_filter.1 hc
      have := mem_cellOf hd
      simp_all
    · intro c hc d hd
      have hd' := List.mem_filter.1 hd
      simp only [decide_eq_true_eq] at hd'
      rcases List.mem_append.1 hc with hc | hc
      · have := List.mem_filter.1 hc
        simp only [decide_eq_true_eq] at this
        omega
      · have := mem_cellOf hc
        omega
  · have hfresh : ∀ b, m.isFresh b = false → (m.write a v).isFresh b = false := by
      intro b hb
      have hb := Memory.isFresh_eq_false.1 hb
      exact Memory.isFresh_eq_false.2 ⟨fun h => hb.1 (List.mem_of_mem_filter h), hb.2⟩
    intro c hc
    simp only [Memory.write, List.mem_append] at hc
    rcases hc with (hc | hc) | hc
    · obtain ⟨h5, h6, h7⟩ := h2 c (List.mem_of_mem_filter hc)
      exact ⟨h5, hfresh _ h6, h7⟩
    · obtain ⟨h5, h6, h7⟩ := mem_cellOf hc
      refine ⟨by simp [implemented, h5, ha], ?_, by simp [h6, h7]⟩
      have : ¬ outBase ≤ a := by omega
      simp [Memory.isFresh, Memory.write, h5, this]
    · obtain ⟨h5, h6, h7⟩ := h2 c (List.mem_of_mem_filter hc)
      exact ⟨h5, hfresh _ h6, h7⟩

theorem Memory.wf_replaceOutputs {p : Params} {m : Memory} (hm : m.wf p = true) {out : List Host.Cell}
    (hr : out.Pairwise (fun c d => c.1 < d.1)) (ho : ∀ c ∈ out, inOutputs p c.1 = true ∧ c.2 ≠ 0#8) :
    (m.replaceOutputs out).wf p = true := by
  obtain ⟨h1, h2, h3, h4⟩ := Memory.wf_iff.1 hm
  refine Memory.wf_iff.2 ⟨?_, ?_, h3.filter _, fun b hb => h4 b (List.mem_of_mem_filter hb)⟩
  · refine List.pairwise_append.2 ⟨h1.filter _, hr, fun c hc d hd => ?_⟩
    have hc' := List.mem_filter.1 hc
    have hd' := inOutputs_ge_outBase (ho d hd).1
    simp only [decide_eq_true_eq] at hc'
    omega
  · intro c hc
    simp only [Memory.replaceOutputs, List.mem_append] at hc
    rcases hc with hc | hc
    · obtain ⟨h5, h6, h7⟩ := h2 c (List.mem_of_mem_filter hc)
      refine ⟨h5, ?_, h7⟩
      have h6 := Memory.isFresh_eq_false.1 h6
      exact Memory.isFresh_eq_false.2
        ⟨fun h => h6.1 (List.mem_of_mem_filter h), by simp [Memory.replaceOutputs]⟩
    · obtain ⟨h5, h6⟩ := ho c hc
      have := inOutputs_ge_outBase h5
      refine ⟨by simp [implemented, h5], ?_, h6⟩
      simp [Memory.isFresh, Memory.replaceOutputs]
      omega

@[simp] theorem Memory.length_readRange (m : Memory) (a n : Nat) : (m.readRange a n).length = n := by
  simp [Memory.readRange]

theorem Memory.getD_readRange (m : Memory) (a n k : Nat) (h : k < n) :
    (m.readRange a n).getD k 0#8 = m.read (a + k) := by
  simp [Memory.readRange, List.getD_eq_getElem?_getD, h]

theorem Memory.take_readRange (m : Memory) (a n k : Nat) (h : k ≤ n) :
    (m.readRange a n).take k = m.readRange a k := by
  simp [Memory.readRange, ← List.map_take, List.take_range, Nat.min_eq_left h]

end Sys2Proof.Machine
end

