-- ==== Sys2Proof/Laws/Trace.lean ====
section
/-! SUPPORT. The laws of the trace layout: where a record's cells lie, and which byte each offset of a slot
holds. -/

namespace Sys2Proof.Machine

theorem mem_fieldCells {base : Nat} {f : SlotField} {c : Host.Cell} (h : c ∈ fieldCells base f) :
    base + f.offset ≤ c.1 ∧ c.1 < base + f.offset + f.size ∧ c.2 ≠ 0#8 := by
  obtain ⟨h1, h2, h3⟩ := mem_cellsAt h
  simp only [List.length_take] at h2
  exact ⟨h1, by omega, h3⟩

theorem cellByte_fieldCells (base : Nat) (f : SlotField) (k : Nat) (h : k < f.size) :
    cellByte (fieldCells base f) (base + f.offset + k) = f.bytes.getD k 0#8 := by
  rw [fieldCells, cellByte_cellsAt _ _ _ (by omega), Nat.add_sub_cancel_left]
  by_cases hk : k < f.bytes.length
  · simp [List.getD_eq_getElem?_getD, h]
  · rw [List.getD_eq_default _ _ (by simp; omega), List.getD_eq_default _ _ (by omega)]

/-- Fields by rising offset, none running into the next. -/
def Disjoint (fs : List SlotField) : Prop := fs.Pairwise (fun f g => f.offset + f.size ≤ g.offset)

theorem pairwise_fields {fs : List SlotField} (hd : Disjoint fs) (base : Nat) :
    (fs.flatMap (fieldCells base)).Pairwise (fun c d => c.1 < d.1) := by
  induction fs with
  | nil => simp
  | cons f t ih =>
    obtain ⟨h1, h2⟩ := List.pairwise_cons.1 hd
    rw [List.flatMap_cons]
    refine List.pairwise_append.2 ⟨pairwise_cellsAt _ _, ih h2, fun c hc d hdm => ?_⟩
    obtain ⟨g, hg, hdg⟩ := List.mem_flatMap.1 hdm
    have := mem_fieldCells hc
    have := mem_fieldCells hdg
    have := h1 g hg
    omega

theorem cellByte_fields {fs : List SlotField} (hd : Disjoint fs) (base : Nat) {f : SlotField} (hf : f ∈ fs)
    {k : Nat} (hk : k < f.size) :
    cellByte (fs.flatMap (fieldCells base)) (base + f.offset + k) = f.bytes.getD k 0#8 := by
  induction fs with
  | nil => simp at hf
  | cons g t ih =>
    obtain ⟨h1, h2⟩ := List.pairwise_cons.1 hd
    rw [List.flatMap_cons]
    rcases List.mem_cons.1 hf with rfl | hf
    · rw [cellByte_append_left, cellByte_fieldCells _ _ _ hk]
      intro c hc
      obtain ⟨g', hg', hcg⟩ := List.mem_flatMap.1 hc
      have := mem_fieldCells hcg
      have := h1 g' hg'
      omega
    · rw [cellByte_append_right, ih h2 hf]
      intro c hc
      have := mem_fieldCells hc
      have := h1 f hf
      omega

theorem cellByte_no_field {fs : List SlotField} (base a : Nat)
    (h : ∀ f ∈ fs, a < base + f.offset ∨ base + f.offset + f.size ≤ a) :
    cellByte (fs.flatMap (fieldCells base)) a = 0#8 := by
  apply cellByte_eq_zero
  intro c hc
  obtain ⟨f, hf, hcf⟩ := List.mem_flatMap.1 hc
  have := mem_fieldCells hcf
  have := h f hf
  omega

theorem disjoint_recordFields (r : TraceRecord) : Disjoint (recordFields r) := by
  simp [Disjoint, recordFields]

theorem mem_recordCells {base : Nat} {r : TraceRecord} {c : Host.Cell} (h : c ∈ recordCells base r) :
    base ≤ c.1 ∧ c.1 < base + slotBytes ∧ c.2 ≠ 0#8 := by
  obtain ⟨f, hf, hcf⟩ := List.mem_flatMap.1 h
  have h1 := mem_fieldCells hcf
  have h2 : f.offset + f.size ≤ slotBytes := by
    simp only [recordFields, List.mem_cons, List.not_mem_nil, or_false] at hf
    rcases hf with rfl | rfl | rfl | rfl | rfl | rfl | rfl | rfl | rfl <;> simp [slotBytes]
  exact ⟨by omega, by omega, h1.2.2⟩

theorem mem_recordsCells {rs : List TraceRecord} {j : Nat} {c : Host.Cell} (h : c ∈ recordsCells j rs) :
    slotBase j ≤ c.1 ∧ c.1 < slotBase (j + rs.length) ∧ c.2 ≠ 0#8 := by
  induction rs generalizing j with
  | nil => simp [recordsCells] at h
  | cons r t ih =>
    rcases List.mem_append.1 h with h | h
    · have := mem_recordCells h
      simp only [slotBase, slotBytes, List.length_cons] at this ⊢
      exact ⟨by omega, by omega, this.2.2⟩
    · have := ih h
      simp only [slotBase, slotBytes, List.length_cons] at this ⊢
      exact ⟨by omega, by omega, this.2.2⟩

theorem pairwise_recordsCells (rs : List TraceRecord) (j : Nat) :
    (recordsCells j rs).Pairwise (fun c d => c.1 < d.1) := by
  induction rs generalizing j with
  | nil => simp [recordsCells]
  | cons r t ih =>
    refine List.pairwise_append.2 ⟨pairwise_fields (disjoint_recordFields r) _, ih (j + 1), fun c hc d hd => ?_⟩
    have := mem_recordCells hc
    have := mem_recordsCells hd
    simp only [slotBase, slotBytes] at *
    omega

/-- The byte at offset `o` of slot `j + i` is that of record `i`. -/
theorem cellByte_recordsCells (rs : List TraceRecord) (j i o : Nat) (hi : i < rs.length) (ho : o < slotBytes) :
    cellByte (recordsCells j rs) (slotBase (j + i) + o) =
      cellByte (recordCells (slotBase (j + i)) rs[i]) (slotBase (j + i) + o) := by
  induction rs generalizing j i with
  | nil => simp at hi
  | cons r t ih =>
    rw [recordsCells]
    cases i with
    | zero =>
      rw [cellByte_append_left]
      · rfl
      · intro c hc
        have := mem_recordsCells hc
        simp only [slotBase, slotBytes] at *
        omega
    | succ i =>
      rw [cellByte_append_right, show j + (i + 1) = j + 1 + i by omega, ih (j + 1) i (by simpa using hi)]
      · rfl
      · intro c hc
        have := mem_recordCells hc
        simp only [slotBase, slotBytes] at *
        omega

theorem cellByte_recordsCells_past (rs : List TraceRecord) (j i o : Nat) (hi : rs.length ≤ i) :
    cellByte (recordsCells j rs) (slotBase (j + i) + o) = 0#8 := by
  apply cellByte_eq_zero
  intro c hc
  have := mem_recordsCells hc
  simp only [slotBase, slotBytes] at *
  omega

/-- Byte `k` of a field of a record. -/
theorem cellByte_recordCells {base : Nat} {r : TraceRecord} {f : SlotField} (hf : f ∈ recordFields r) {k : Nat}
    (hk : k < f.size) : cellByte (recordCells base r) (base + f.offset + k) = f.bytes.getD k 0#8 :=
  cellByte_fields (disjoint_recordFields r) base hf hk

/-- The cells a completion lists for OUT and TRACE. -/
theorem mem_outputs {p : Params} {bytes : Text} {rs : List TraceRecord} {c : Host.Cell}
    (h : c ∈ outCells p bytes ++ traceCells p rs) : inOutputs p c.1 = true ∧ c.2 ≠ 0#8 := by
  rcases List.mem_append.1 h with h | h
  · have := mem_cellsAt h
    simp only [outBase, List.length_take] at this
    exact ⟨inOutputs_iff.2 (by omega), this.2.2⟩
  · have := mem_recordsCells h
    simp only [slotBase, slotBytes, traceBase, List.length_take] at this
    exact ⟨inOutputs_iff.2 (by omega), this.2.2⟩

theorem outMax_le {p : Params} (hp : p.legal = true) : outMax p ≤ 255 := by
  have := params_legal_iff.1 hp
  simp only [outMax]
  omega

theorem pairwise_outputs {p : Params} (hp : p.legal = true) (bytes : Text) (rs : List TraceRecord) :
    (outCells p bytes ++ traceCells p rs).Pairwise (fun c d => c.1 < d.1) := by
  refine List.pairwise_append.2 ⟨pairwise_cellsAt _ _, pairwise_recordsCells _ _, fun c hc d hd => ?_⟩
  have := mem_cellsAt hc
  have := mem_recordsCells hd
  have := outMax_le hp
  simp only [outBase, slotBase, slotBytes, traceBase, List.length_take] at *
  omega

theorem cellByte_outputs_out {p : Params} (hp : p.legal = true) (bytes : Text) (rs : List TraceRecord) (k : Nat)
    (hk : k < outMax p) : cellByte (outCells p bytes ++ traceCells p rs) (outBase + k) = bytes.getD k 0#8 := by
  rw [cellByte_append_left, outCells, cellByte_cellsAt _ _ _ (by omega), Nat.add_sub_cancel_left]
  · by_cases h : k < bytes.length
    · simp [List.getD_eq_getElem?_getD, hk]
    · rw [List.getD_eq_default _ _ (by simp; omega), List.getD_eq_default _ _ (by omega)]
  · intro c hc
    have := mem_recordsCells hc
    have := outMax_le hp
    simp only [outBase, slotBase, slotBytes, traceBase] at *
    omega

theorem cellByte_outputs_trace {p : Params} (hp : p.legal = true) (bytes : Text) (rs : List TraceRecord)
    (j o : Nat) : cellByte (outCells p bytes ++ traceCells p rs) (slotBase j + o) =
      cellByte (traceCells p rs) (slotBase j + o) := by
  apply cellByte_append_right
  intro c hc
  have := mem_cellsAt hc
  have := outMax_le hp
  simp only [outBase, slotBase, slotBytes, traceBase, List.length_take] at *
  omega

end Sys2Proof.Machine
end

