-- ==== Sys2Proof/Laws/Ops.lean ====
section
/-! SUPPORT. What each shared operation can do, said once: the two events of a command, the completion step, the
bus, and one step of the machine. -/

namespace Sys2Proof.Machine

/-- What command `i` computes from its latched operands. -/
def commandResult : Instr → Latched → Except ErrorCode Result
  | .encode => encodeResult
  | .decode => decodeResult
  | .derive => deriveResult
  | .mix => mixResult
  | .encrypt => encryptResult
  | .decrypt => decryptResult
  | .nop | .reserved7 | .reserved8 | .reserved9 | .reservedA | .reservedB => noResult
  | .reservedC | .reservedD | .reservedE | .reservedF => noResult

/-- Every command but NOP is the shared two-event operation with its own result. -/
theorem exec_eq_runCommand {i : Instr} (h : i ≠ .nop) (s : State) :
    exec i s = runCommand i (commandResult i) s := by
  cases i <;> first | rfl | exact absurd rfl h

theorem exec_nop (s : State) : exec .nop s = .next s := rfl

theorem runCommand_idle {i : Instr} {f : Latched → Except ErrorCode Result} {s : State} (h : s.busy = false) :
    runCommand i f s = .next (accept (opcode i) s) := by simp [runCommand, h]

theorem runCommand_latched {i : Instr} {f : Latched → Except ErrorCode Result} {s : State} {l : Latched}
    (hb : s.busy = true) (hl : s.latched = some l) (ho : l.op = opcode i) :
    runCommand i f s = .next (complete i l (f l) s) := by simp [runCommand, hb, hl, ho]

/-- A completion either fails or completes a result after every check has passed. -/
theorem complete_cases (i : Instr) (l : Latched) (f : Except ErrorCode Result) (s : State) :
    (∃ e, complete i l f s = raiseError e s ∧ (validate s.params i l = some e ∨
      (validate s.params i l = none ∧ f = .error e))) ∨
    (∃ r, complete i l f s = completeOk r s ∧ validate s.params i l = none ∧ f = .ok r) := by
  unfold complete
  cases hv : validate s.params i l with
  | some e => exact .inl ⟨e, rfl, .inl rfl⟩
  | none =>
    cases f with
    | error e => exact .inl ⟨e, rfl, .inr ⟨rfl, rfl⟩⟩
    | ok r => exact .inr ⟨r, rfl, rfl, rfl⟩

/-- Everything a command can do: nothing, be accepted, or complete. -/
theorem exec_cases (i : Instr) (s : State) :
    exec i s = .next s ∨
    (i ≠ .nop ∧ s.busy = false ∧ exec i s = .next (accept (opcode i) s)) ∨
    (i ≠ .nop ∧ s.busy = true ∧ ∃ l, s.latched = some l ∧ l.op = opcode i ∧
      exec i s = .next (complete i l (commandResult i l) s)) := by
  by_cases hi : i = .nop
  · subst hi; exact .inl rfl
  · rw [exec_eq_runCommand hi]
    cases hb : s.busy with
    | false => exact .inr (.inl ⟨hi, rfl, runCommand_idle hb⟩)
    | true =>
      cases hl : s.latched with
      | none => exact .inl (by simp [runCommand, hb, hl])
      | some l =>
        by_cases ho : l.op = opcode i
        · exact .inr (.inr ⟨hi, rfl, l, rfl, ho, runCommand_latched hb hl ho⟩)
        · exact .inl (by simp [runCommand, hb, hl, ho])

/-- What the outputs read after a successful completion: OUT byte by byte. -/
theorem completeOk_read_out {s : State} (hp : s.params.legal = true) (r : Result) {k : Nat}
    (hk : k < outMax s.params) : (completeOk r s).mem.read (outBase + k) = (packBits r.bits).getD k 0#8 := by
  rw [completeOk_mem, Memory.read_replaceOutputs (fun c hc => inOutputs_ge_outBase (mem_outputs hc).1)]
  rw [if_neg (by omega), cellByte_outputs_out hp _ _ _ hk]

/-- What a trace slot reads after a successful completion. -/
theorem completeOk_read_trace {s : State} (hp : s.params.legal = true) (r : Result) (j o : Nat) :
    (completeOk r s).mem.read (slotBase j + o) = cellByte (traceCells s.params r.records) (slotBase j + o) := by
  rw [completeOk_mem, Memory.read_replaceOutputs (fun c hc => inOutputs_ge_outBase (mem_outputs hc).1)]
  rw [if_neg (by simp only [slotBase, traceBase, outBase]; omega), cellByte_outputs_trace hp]

/-- Byte `k` of a field of the record in slot `j` after a successful completion. -/
theorem completeOk_read_field {s : State} (hp : s.params.legal = true) {r : Result} {j : Nat} {rec : TraceRecord}
    (hr : r.records[j]? = some rec) (hfit : r.records.length ≤ traceRecords s.params) {f : SlotField}
    (hf : f ∈ recordFields rec) {k : Nat} (hk : k < f.size) :
    (completeOk r s).slotByte j (f.offset + k) = f.bytes.getD k 0#8 := by
  obtain ⟨hj, rfl⟩ := List.getElem?_eq_some_iff.1 hr
  have hs : f.offset + f.size ≤ slotBytes := by
    simp only [recordFields, List.mem_cons, List.not_mem_nil, or_false] at hf
    rcases hf with rfl | rfl | rfl | rfl | rfl | rfl | rfl | rfl | rfl <;> simp [slotBytes]
  have h1 := completeOk_read_trace hp r j (f.offset + k)
  rw [State.slotByte, h1, traceCells, List.take_of_length_le hfit]
  have h2 := cellByte_recordsCells r.records 0 j (f.offset + k) hj (by omega)
  rw [Nat.zero_add] at h2
  rw [h2, ← Nat.add_assoc]
  exact cellByte_recordCells hf hk

/-- Every slot from the number of records on is zero after a successful completion. -/
theorem completeOk_read_past {s : State} (hp : s.params.legal = true) (r : Result) {j : Nat} (o : Nat)
    (hj : r.records.length ≤ j) : (completeOk r s).slotByte j o = 0#8 := by
  rw [State.slotByte, completeOk_read_trace hp, traceCells]
  have h := cellByte_recordsCells_past (r.records.take (traceRecords s.params)) 0 j o (by simp; omega)
  rwa [Nat.zero_add] at h

/-- A byte outside OUT and TRACE is not changed by a successful completion. -/
theorem completeOk_bufferByte {s : State} (hp : s.params.legal = true) (r : Result) {a : Nat}
    (ha : inOutputs s.params a = false) : bufferByte (completeOk r s) a = bufferByte s a := by
  simp only [bufferByte, completeOk_params]
  by_cases hi : implemented s.params a = true
  · have hin : inInputs s.params a = true := by simpa [implemented, ha] using hi
    have hlt := inInputs_lt_outBase hp hin
    rw [completeOk_mem, Memory.read_replaceOutputs (fun c hc => inOutputs_ge_outBase (mem_outputs hc).1),
      if_pos hlt]
    rfl
  · simp [hi]

theorem completeOk_wf {s : State} (hp : s.params.legal = true) (hm : s.mem.wf s.params = true) (r : Result) :
    (completeOk r s).mem.wf s.params = true := by
  rw [completeOk_mem]
  exact Memory.wf_replaceOutputs hm (pairwise_outputs hp _ _) fun c hc => mem_outputs hc

end Sys2Proof.Machine
end

