-- ==== Sys2Proof/Laws/Step.lean ====
section
/-! SUPPORT. What one step can do, said once: the inversion of a transaction, of a host event and of a step. -/

namespace Sys2Proof.Machine

/-- `u` is `s` but for the model's own channel to the host and its draw index: no state of the block differs. -/
def ChannelOnly (s u : State) : Prop :=
  ∃ h rs w d, u = { s with host := h, responses := rs, wait := w, draws := d }

theorem ChannelOnly.refl (s : State) : ChannelOnly s s := ⟨s.host, s.responses, s.wait, s.draws, rfl⟩

theorem ChannelOnly.trans {s t u : State} (h1 : ChannelOnly s t) (h2 : ChannelOnly t u) : ChannelOnly s u := by
  obtain ⟨h, rs, w, d, rfl⟩ := h1
  obtain ⟨h', rs', w', d', rfl⟩ := h2
  exact ⟨h', rs', w', d', rfl⟩

theorem channelOnly_respond (r : Response) (s : State) : ChannelOnly s (respond r s) :=
  ⟨s.host, r :: s.responses, s.wait, s.draws, rfl⟩

theorem ChannelOnly.params {s u : State} (h : ChannelOnly s u) : u.params = s.params := by
  obtain ⟨_, _, _, _, rfl⟩ := h; rfl

theorem ChannelOnly.busy {s u : State} (h : ChannelOnly s u) : u.busy = s.busy := by
  obtain ⟨_, _, _, _, rfl⟩ := h; rfl

theorem ChannelOnly.mem {s u : State} (h : ChannelOnly s u) : u.mem = s.mem := by
  obtain ⟨_, _, _, _, rfl⟩ := h; rfl

theorem ChannelOnly.latched {s u : State} (h : ChannelOnly s u) : u.latched = s.latched := by
  obtain ⟨_, _, _, _, rfl⟩ := h; rfl

theorem windowOffset_base (p : Params) {off : Nat} (h : off < windowBytes) :
    windowOffset p (p.base + off) = some off := by
  simp [windowOffset, h]

/-- Storing a byte changes no field but `mem`. -/
theorem storeByte_eq (a : Nat) (v : Byte) (s : State) : ∃ m, storeByte a v s = { s with mem := m } := by
  unfold storeByte
  split
  · exact ⟨_, rfl⟩
  · exact ⟨s.mem, rfl⟩

theorem storeBytes_eq (off : Nat) (v : Word) (s : State) : ∃ m, storeBytes off v s = { s with mem := m } := by
  unfold storeBytes
  obtain ⟨m0, h0⟩ := storeByte_eq off (byteOfWord v 0) s
  rw [h0]
  obtain ⟨m1, h1⟩ := storeByte_eq (off + 1) (byteOfWord v 1) { s with mem := m0 }
  rw [h1]
  obtain ⟨m2, h2⟩ := storeByte_eq (off + 2) (byteOfWord v 2) { s with mem := m1 }
  rw [h2]
  obtain ⟨m3, h3⟩ := storeByte_eq (off + 3) (byteOfWord v 3) { s with mem := m2 }
  exact ⟨m3, h3⟩

/-- A store to an offset where no byte of TEXT_IN or KEY is implemented is ignored. -/
theorem storeBytes_ignored {off : Nat} (v : Word) {s : State} (h : ∀ k, k < 4 → inInputs s.params (off + k) = false) :
    storeBytes off v s = s := by
  have h0 := h 0 (by omega)
  have h1 := h 1 (by omega)
  have h2 := h 2 (by omega)
  have h3 := h 3 (by omega)
  rw [Nat.add_zero] at h0
  simp [storeBytes, storeByte, h0, h1, h2, h3]

theorem storeByte_read {s : State} (hp : s.params.legal = true) (a : Nat) (v : Byte) (b : Nat) :
    (storeByte a v s).mem.read b = if inInputs s.params a = true ∧ b = a then v else s.mem.read b := by
  by_cases ha : inInputs s.params a = true
  · simp [storeByte, ha, Memory.read_write v (inInputs_lt_outBase hp ha)]
  · simp [storeByte, ha]

theorem storeByte_params (a : Nat) (v : Byte) (s : State) : (storeByte a v s).params = s.params := by
  obtain ⟨m, h⟩ := storeByte_eq a v s
  rw [h]

theorem storeByte_wf {s : State} (hp : s.params.legal = true) (hm : s.mem.wf s.params = true) (a : Nat) (v : Byte) :
    (storeByte a v s).mem.wf s.params = true := by
  by_cases ha : inInputs s.params a = true
  · simpa [storeByte, ha] using Memory.wf_write hp hm ha v
  · simpa [storeByte, ha] using hm

/-- What a word store does to every byte. -/
theorem storeBytes_read {s : State} (hp : s.params.legal = true) (off : Nat) (v : Word) (b : Nat) :
    (storeBytes off v s).mem.read b =
      if off ≤ b ∧ b < off + 4 ∧ inInputs s.params b = true then byteOfWord v (b - off) else s.mem.read b := by
  unfold storeBytes
  rw [storeByte_read (by simpa [storeByte_params] using hp), storeByte_read (by simpa [storeByte_params] using hp),
    storeByte_read (by simpa [storeByte_params] using hp), storeByte_read hp]
  simp only [storeByte_params]
  by_cases hb : off ≤ b ∧ b < off + 4
  · obtain ⟨k, rfl⟩ : ∃ k, b = off + k := ⟨b - off, by omega⟩
    have hk : k < 4 := by omega
    by_cases hi : inInputs s.params (off + k) = true <;> interval_cases k <;> simp_all
  · have h0 : ¬ b = off := by omega
    have h1 : ¬ b = off + 1 := by omega
    have h2 : ¬ b = off + 2 := by omega
    have h3 : ¬ b = off + 3 := by omega
    have h4 : ¬ (off ≤ b ∧ b < off + 4 ∧ inInputs s.params b = true) := fun h => hb ⟨h.1, h.2.1⟩
    simp [h0, h1, h2, h3, h4]

theorem storeBytes_wf {s : State} (hp : s.params.legal = true) (hm : s.mem.wf s.params = true) (off : Nat) (v : Word) :
    (storeBytes off v s).mem.wf s.params = true := by
  unfold storeBytes
  have h0 := storeByte_wf hp hm off (byteOfWord v 0)
  have h1 := storeByte_wf (s := storeByte off (byteOfWord v 0) s) (by simpa [storeByte_params] using hp)
    (by simpa [storeByte_params] using h0) (off + 1) (byteOfWord v 1)
  have h2 := storeByte_wf (s := storeByte (off + 1) (byteOfWord v 1) (storeByte off (byteOfWord v 0) s))
    (by simpa [storeByte_params] using hp) (by simpa [storeByte_params] using h1) (off + 2) (byteOfWord v 2)
  have h3 := storeByte_wf
    (s := storeByte (off + 2) (byteOfWord v 2) (storeByte (off + 1) (byteOfWord v 1) (storeByte off (byteOfWord v 0)
      s)))
    (by simpa [storeByte_params] using hp) (by simpa [storeByte_params] using h2) (off + 3) (byteOfWord v 3)
  simpa [storeByte_params] using h3

/-- Every command answers a next state and keeps the parameters. -/
theorem exec_next (i : Instr) (s : State) : ∃ t, exec i s = .next t ∧ t.params = s.params ∧ t.host = s.host ∧
    t.responses = s.responses := by
  rcases exec_cases i s with h | ⟨-, -, h⟩ | ⟨-, -, l, -, -, h⟩
  · exact ⟨s, h, rfl, rfl, rfl⟩
  · exact ⟨_, h, rfl, rfl, rfl⟩
  · refine ⟨_, h, ?_⟩
    rcases complete_cases i l (commandResult i l) s with ⟨e, he, -⟩ | ⟨r, hr, -⟩
    · rw [he]; exact ⟨rfl, rfl, rfl⟩
    · rw [hr]; exact ⟨rfl, rfl, rfl⟩

/-- An idle command is NOP or is accepted. -/
theorem exec_idle {s : State} (h : s.busy = false) (i : Instr) :
    exec i s = .next (if i = .nop then s else accept (opcode i) s) := by
  by_cases hi : i = .nop
  · subst hi; rfl
  · rw [exec_eq_runCommand hi, runCommand_idle h, if_neg hi]

/-- Everything a transaction can do: touch only the host's channel; have a command accepted; or store a word. -/
theorem runTransaction_cases (t : Transaction) (s : State) :
    ∃ u, runTransaction t s = .next u ∧
      (ChannelOnly s u ∨
        (s.busy = false ∧ ∃ i, i ≠ .nop ∧ ChannelOnly (accept (opcode i) s) u) ∨
        (s.busy = false ∧ ∃ off v, ChannelOnly (storeWord off v s) u)) := by
  unfold runTransaction
  cases windowOffset s.params t.addr with
  | none => exact ⟨s, rfl, .inl (ChannelOnly.refl s)⟩
  | some off =>
    cases t with
    | memRead a n =>
      by_cases hl : legalAccess off n = true
      · exact ⟨_, by simp only [hl, if_true]; rfl, .inl ⟨_, _, _, _, rfl⟩⟩
      · exact ⟨_, by simp only [hl]; rfl, .inl ⟨_, _, _, _, rfl⟩⟩
    | memWrite a n v =>
      by_cases hl : legalAccess off n = true
      · simp only [hl, if_true, runWrite]
        cases hb : s.busy with
        | true => exact ⟨_, by simp only [if_true]; rfl, .inl (channelOnly_respond _ s)⟩
        | false =>
          by_cases hc : off = offCmd
          · rw [exec_idle hb]
            refine ⟨_, by simp only [hc, if_true]; rfl, ?_⟩
            by_cases hi : decode v = .nop
            · rw [if_pos hi]; exact .inl (channelOnly_respond _ s)
            · rw [if_neg hi]; exact .inr (.inl ⟨rfl, decode v, hi, channelOnly_respond _ _⟩)
          · exact ⟨_, by simp only [hc, if_false]; rfl, .inr (.inr ⟨rfl, off, v, channelOnly_respond _ _⟩)⟩
      · exact ⟨_, by simp only [hl]; rfl, .inl (channelOnly_respond _ s)⟩

theorem storeWord_params (off : Nat) (v : Word) (s : State) :
    (storeWord off v s).params = s.params ∧ (storeWord off v s).host = s.host := by
  unfold storeWord
  obtain ⟨m, hm⟩ := storeBytes_eq off v s
  repeat' split
  all_goals first | exact ⟨rfl, rfl⟩ | (rw [hm]; exact ⟨rfl, rfl⟩)

theorem runTransaction_params {t : Transaction} {s u : State} (h : runTransaction t s = .next u) :
    u.params = s.params := by
  obtain ⟨u', h', hc⟩ := runTransaction_cases t s
  rw [h] at h'
  cases h'
  rcases hc with hc | ⟨-, i, -, hc⟩ | ⟨-, off, v, hc⟩
  · exact hc.params
  · exact hc.params
  · exact hc.params.trans (storeWord_params off v s).1

/-- A transaction that is a read touches only the responses and the draw index. -/
theorem runTransaction_read (a n : Nat) (s : State) :
    ∃ rs d, runTransaction (.memRead a n) s = .next { s with responses := rs, draws := d } := by
  unfold runTransaction
  cases windowOffset s.params (Transaction.addr (.memRead a n)) with
  | none => exact ⟨s.responses, s.draws, rfl⟩
  | some off =>
    by_cases hl : legalAccess off n = true
    · exact ⟨_, _, by simp only [hl, if_true]; rfl⟩
    · exact ⟨_, s.draws, by simp only [hl]; rfl⟩

/-- Everything a host event can do. -/
theorem runEvent_cases (e : HostEvent) (s : State) :
    ∃ u, runEvent e s = .next u ∧
      (ChannelOnly s u ∨
        (s.busy = false ∧ ∃ i, i ≠ .nop ∧ ChannelOnly (accept (opcode i) s) u) ∨
        (s.busy = false ∧ ∃ off v, ChannelOnly (storeWord off v s) u) ∨
        (∃ x, e = .reset x ∧ ∃ s1, s1.params = s.params ∧ ChannelOnly (resetBlock s1) u)) := by
  cases e with
  | access t =>
    obtain ⟨u, hu, hc⟩ := runTransaction_cases t s
    exact ⟨u, hu, hc.imp id (Or.imp id .inl)⟩
  | poll addr mask value =>
    obtain ⟨rs, d, hr⟩ := runTransaction_read addr 4 s
    simp only [runEvent, runPoll, hr]
    split
    · exact ⟨_, rfl, .inl ⟨_, _, _, _, rfl⟩⟩
    · exact ⟨_, rfl, .inl ⟨_, _, _, _, rfl⟩⟩
  | reset x =>
    cases x with
    | none => exact ⟨_, rfl, .inr (.inr (.inr ⟨none, rfl, s, rfl, ChannelOnly.refl _⟩))⟩
    | some t =>
      simp only [runEvent, runResetInFlight]
      split
      · obtain ⟨u, hu, -⟩ := runTransaction_cases t { s with draws := s.draws + 1 }
        have hp := runTransaction_params hu
        rw [hu]
        exact ⟨_, rfl, .inr (.inr (.inr ⟨some t, rfl, u, hp, ⟨_, _, _, _, rfl⟩⟩))⟩
      · exact ⟨_, rfl, .inr (.inr (.inr ⟨some t, rfl, { s with draws := s.draws + 1 }, rfl, ⟨_, _, _, _, rfl⟩⟩))⟩

/-- Everything one step can do: touch only the host's channel; have a command accepted; store a word; complete the
command in progress; or reset. -/
theorem step_cases (s : State) :
    ∃ u, step s = .next u ∧
      (ChannelOnly s u ∨
        (s.busy = false ∧ ∃ i s0, i ≠ .nop ∧ ChannelOnly s s0 ∧ ChannelOnly (accept (opcode i) s0) u) ∨
        (s.busy = false ∧ ∃ off v s0, ChannelOnly s s0 ∧ ChannelOnly (storeWord off v s0) u) ∨
        (s.busy = true ∧ ∃ i l, i ≠ .nop ∧ s.latched = some l ∧ l.op = opcode i ∧
          u = complete i l (commandResult i l) s) ∨
        (∃ x rest s1, s.host = .reset x :: rest ∧ s1.params = s.params ∧ ChannelOnly (resetBlock s1) u)) := by
  unfold step nextEvent
  by_cases he : engineMoves s = true
  · rw [if_pos he]
    have hb : s.busy = true := by
      simp only [engineMoves, Bool.and_eq_true] at he
      exact he.1.1
    unfold engineMove
    cases hl : s.latched with
    | none => exact ⟨s, rfl, .inl (ChannelOnly.refl s)⟩
    | some l =>
      rcases exec_cases (decodeOpcode l.op) s with h | ⟨-, h, -⟩ | ⟨hi, -, l', hl', ho, h⟩
      · exact ⟨s, h, .inl (ChannelOnly.refl s)⟩
      · rw [hb] at h; cases h
      · rw [hl] at hl'
        cases hl'
        exact ⟨_, h, .inr (.inr (.inr (.inl ⟨hb, _, l, hi, rfl, ho, rfl⟩)))⟩
  · rw [if_neg he]
    unfold hostMove
    cases hh : s.host with
    | nil => exact ⟨s, rfl, .inl (ChannelOnly.refl s)⟩
    | cons e rest =>
      have h0 : ChannelOnly s { s with host := rest, wait := s.wait - 1 } := ⟨_, _, _, _, rfl⟩
      obtain ⟨u, hu, hc⟩ := runEvent_cases e { s with host := rest, wait := s.wait - 1 }
      refine ⟨u, hu, ?_⟩
      rcases hc with hc | ⟨hb, i, hi, hc⟩ | ⟨hb, off, v, hc⟩ | ⟨x, rfl, s1, h1, hc⟩
      · exact .inl (h0.trans hc)
      · exact .inr (.inl ⟨hb, i, _, hi, h0, hc⟩)
      · exact .inr (.inr (.inl ⟨hb, off, v, _, h0, hc⟩))
      · exact .inr (.inr (.inr (.inr ⟨x, rest, s1, rfl, h1, hc⟩)))

end Sys2Proof.Machine
end

