-- ==== Sys2Proof/Laws/Bus.lean ====
section
/-! SUPPORT. Bus words as bytes and masks, and what a step and a transaction inside the window come to. -/

namespace Sys2Proof.Machine

/-- Where each bit of a bus word lies in its bytes (20_memory.md R53). -/
theorem getLsbD_wordOfBytes (b0 b1 b2 b3 : Byte) (i : Nat) : (wordOfBytes b0 b1 b2 b3).getLsbD i =
   if i < 8 then b0.getLsbD i else if i < 16 then b1.getLsbD (i - 8) else if i < 24 then b2.getLsbD (i - 16)
     else b3.getLsbD (i - 24) := by
  have h : (wordOfBytes b0 b1 b2 b3).getLsbD i = (b3 ++ b2 ++ b1 ++ b0 : BitVec (8+8+8+8)).getLsbD i := rfl
  rw [h]
  simp only [BitVec.getLsbD_append]
  repeat' split
  all_goals first | rfl | omega

theorem byte_wordOfBytes (b0 b1 b2 b3 : Byte) :
    (wordOfBytes b0 b1 b2 b3).extractLsb' 0 8 = b0 ∧ (wordOfBytes b0 b1 b2 b3).extractLsb' 8 8 = b1 ∧
      (wordOfBytes b0 b1 b2 b3).extractLsb' 16 8 = b2 ∧ (wordOfBytes b0 b1 b2 b3).extractLsb' 24 8 = b3 := by
  refine ⟨?_, ?_, ?_, ?_⟩ <;> apply BitVec.eq_of_getLsbD_eq <;> intro i hi <;>
    rw [BitVec.getLsbD_extractLsb', getLsbD_wordOfBytes] <;> interval_cases i <;> rfl

theorem wordOfBytes_byteOfWord (v : Word) : wordOfBytes (byteOfWord v 0) (byteOfWord v 1) (byteOfWord v 2)
    (byteOfWord v 3) = v := by
  apply BitVec.eq_of_getLsbD_eq; intro i hi
  rw [getLsbD_wordOfBytes]
  simp only [byteOfWord, BitVec.getLsbD_extractLsb']
  interval_cases i <;> rfl

theorem mask4 (v : Word) : (v.extractLsb' 0 4).setWidth 32 = v &&& 0xF := by
  ext i hi; interval_cases i <;> simp

theorem mask8 (v : Word) : (v.extractLsb' 0 8).setWidth 32 = v &&& 0xFF := by
  ext i hi; interval_cases i <;> simp

theorem mask16 (v : Word) : (v.extractLsb' 0 16).setWidth 32 = v &&& 0xFFFF := by
  ext i hi; interval_cases i <;> simp

theorem step_host {s : State} {e : HostEvent} {rest : List HostEvent} (h : HostMoves s e rest) :
    step s = runEvent e { s with host := rest, wait := s.wait - 1 } := by
  simp [step, nextEvent, hostMove, h.1, h.2]

theorem hostMoves_idle {s : State} {e rest} (hb : s.busy = false) (h : s.host = e :: rest) : HostMoves s e rest := by
  simp [HostMoves, engineMoves, hb, h]

theorem legalAccess_iff {off n : Nat} : legalAccess off n = true ↔ n = 4 ∧ off % 4 = 0 := by simp [legalAccess]

theorem runTransaction_read_window {s : State} {off : Nat} (h : off < windowBytes) (n : Nat) :
    runTransaction (.memRead (s.params.base + off) n) s =
      if legalAccess off n then .next (respond (.read .okay (readData s off)) { s with draws := drawsAfterRead s off })
      else .next (respond (.read .error 0) s) := by
  simp only [runTransaction, Transaction.addr, windowOffset_base _ h]

theorem runTransaction_write_window {s : State} {off : Nat} (h : off < windowBytes) (n : Nat) (v : Word) :
    runTransaction (.memWrite (s.params.base + off) n v) s =
      if legalAccess off n then runWrite off v s else .next (respond (.write .error) s) := by
  simp only [runTransaction, Transaction.addr, windowOffset_base _ h]

theorem runWrite_cmd {s t : State} {v : Word} (hb : s.busy = false) (ht : exec (decode v) s = .next t) :
    runWrite offCmd v s = .next (respond (.write .okay) t) := by
  simp only [runWrite, hb, if_true, ht]; rfl

theorem runTransaction_host {t : Transaction} {s u : State} (h : runTransaction t s = .next u) : u.host = s.host := by
  unfold runTransaction at h
  split at h
  · cases h; rfl
  · split at h
    · split at h <;> cases h <;> rfl
    · split at h
      · unfold runWrite at h
        split at h
        · cases h; rfl
        · split at h
          · rename_i v _ _ _ _
            obtain ⟨w, hw, -, hh, -⟩ := exec_next (decode v) s
            rw [hw] at h; cases h; exact hh
          · cases h; exact (storeWord_params _ _ s).2
      · cases h; rfl

theorem storeByte_draws (a : Nat) (v : Byte) (s : State) : (storeByte a v s).draws = s.draws := by
  obtain ⟨m, hm⟩ := storeByte_eq a v s
  rw [hm]

theorem storeWord_draws (off : Nat) (v : Word) (s : State) : (storeWord off v s).draws = s.draws := by
  unfold storeWord
  repeat' split
  all_goals first | rfl | simp only [storeBytes, storeByte_draws]

/-- A command never takes a draw index back. -/
theorem exec_draws {i : Instr} {s u : State} (h : exec i s = .next u) : s.draws ≤ u.draws := by
  rcases exec_cases i s with h' | ⟨-, -, h'⟩ | ⟨-, -, l, -, -, h'⟩ <;> rw [h] at h' <;> cases h'
  · exact Nat.le_refl _
  · exact Nat.le_succ _
  · rcases complete_cases i l (commandResult i l) s with ⟨e, he, -⟩ | ⟨r, he, -⟩ <;> rw [he] <;> exact Nat.le_refl _

theorem drawsAfterRead_ge (s : State) (off : Nat) : s.draws ≤ drawsAfterRead s off := by
  unfold drawsAfterRead
  split
  · exact Nat.le_succ _
  · exact Nat.le_refl _

theorem runWrite_draws {off : Nat} {v : Word} {s u : State} (h : runWrite off v s = .next u) :
    s.draws ≤ u.draws := by
  unfold runWrite at h
  split at h
  · cases h; exact Nat.le_refl _
  · split at h
    · split at h
      · rename_i t ht
        cases h
        exact (exec_draws ht : s.draws ≤ t.draws)
      · cases h
      · cases h
    · cases h
      exact Nat.le_of_eq (storeWord_draws off v s).symm

/-- A transaction never takes a draw index back. -/
theorem runTransaction_draws {t : Transaction} {s u : State} (h : runTransaction t s = .next u) :
    s.draws ≤ u.draws := by
  unfold runTransaction at h
  split at h
  · cases h; exact Nat.le_refl _
  · split at h
    · split at h <;> cases h
      · exact drawsAfterRead_ge s _
      · exact Nat.le_refl _
    · split at h
      · exact runWrite_draws h
      · cases h; exact Nat.le_refl _

/-- A reset, whatever was in flight, ends in the reset block of some state with the same parameters, no earlier draw
index and the same events to come. -/
theorem runEvent_reset {s : State} (x : Option Transaction) :
  ∃ s1 rs, runEvent (.reset x) s = .next {resetBlock s1 with responses := rs} ∧ s1.params = s.params ∧
    s1.host = s.host ∧ s.draws ≤ s1.draws := by
  cases x with
  | none => exact ⟨s, s.responses, rfl, rfl, rfl, Nat.le_refl _⟩
  | some x =>
    simp only [runEvent, runResetInFlight]
    split
    · obtain ⟨u, hu, hc⟩ := runTransaction_cases x {s with draws := s.draws+1}
      have hp := runTransaction_params hu
      have hh := runTransaction_host hu
      rw [hu]
      exact ⟨u, _, rfl, hp, hh, Nat.le_of_succ_le (runTransaction_draws hu)⟩
    · exact ⟨{s with draws := s.draws+1}, _, rfl, rfl, rfl, Nat.le_succ _⟩

theorem step_write {s : State} {off : Nat} {v : Word} {rest} (hw : off < windowBytes) (ho : off % 4 = 0)
    (h : HostMoves s (.access (.memWrite (s.params.base + off) 4 v)) rest) :
    step s = runWrite off v { s with host := rest, wait := s.wait - 1 } := by
  rw [step_host h]
  refine (runTransaction_write_window (s := { s with host := rest, wait := s.wait - 1 }) hw 4 v).trans ?_
  rw [if_pos (legalAccess_iff.2 ⟨rfl, ho⟩)]

theorem step_read {s : State} {off : Nat} {rest} (hw : off < windowBytes) (ho : off % 4 = 0)
   (h : HostMoves s (.access (.memRead (s.params.base + off) 4)) rest) : step s =
     .next { answered (.read .okay (readData s off)) rest (s.wait - 1) s with draws := drawsAfterRead s off } := by
  rw [step_host h]
  refine (runTransaction_read_window (s := { s with host := rest, wait := s.wait - 1 }) hw 4).trans ?_
  rw [if_pos (legalAccess_iff.2 ⟨rfl, ho⟩)]; rfl

theorem storeByte_channel (a : Nat) (v : Byte) (s : State) (h : List HostEvent) (w : Nat) :
    storeByte a v { s with host := h, wait := w } = { storeByte a v s with host := h, wait := w } := by
  unfold storeByte; split <;> rfl

theorem storeWord_channel (off : Nat) (v : Word) (s : State) (h : List HostEvent) (w : Nat) :
    storeWord off v { s with host := h, wait := w } = { storeWord off v s with host := h, wait := w } := by
  unfold storeWord
  repeat' split
  · rfl
  · rfl
  · rfl
  · rfl
  · unfold storeBytes
    rw [storeByte_channel off _ s h w, storeByte_channel (off + 1) _ _ h w, storeByte_channel (off + 2) _ _ h w,
      storeByte_channel (off + 3) _ _ h w]

theorem storeWord_wait (off : Nat) (v : Word) (s : State) : (storeWord off v s).wait = s.wait := by
  unfold storeWord
  repeat' split
  · rfl
  · rfl
  · rfl
  · rfl
  · obtain ⟨m, hm⟩ := storeBytes_eq off v s; rw [hm]

theorem step_read_idle {s : State} {off : Nat} {rest} (hb : s.busy = false) (hw : off < windowBytes) (ho : off % 4 = 0)
   (h : HostMoves s (.access (.memRead (s.params.base + off) 4)) rest) : step s =
     .next (answered (.read .okay (readWord s off)) rest (s.wait - 1) s) := by
  rw [step_read hw ho h]; simp [readData, drawsAfterRead, hb]; rfl

theorem step_write_idle {s : State} {off : Nat} {v : Word} {rest} (hb : s.busy = false) (hw : off < windowBytes) (ho :
    off % 4 = 0) (hc : off ≠ offCmd)
   (h : HostMoves s (.access (.memWrite (s.params.base + off) 4 v)) rest) :
   step s = .next (answered (.write .okay) rest (s.wait - 1) (storeWord off v s)) := by
  have hb' : ¬ ({ s with host := rest, wait := s.wait - 1 } : State).busy = true := by simp [hb]
  rw [step_write hw ho h, runWrite, if_neg hb', if_neg hc, storeWord_channel off v s rest (s.wait - 1)]
  rfl

theorem storeWord_buffer {off : Nat} (h : 0x20 ≤ off) (v : Word) (s : State) : storeWord off v s =
    storeBytes off v s := by
  unfold storeWord
  rw [if_neg (by unfold offRounds; omega), if_neg (by unfold offTextLen; omega), if_neg (by unfold offKeyLen; omega),
    if_neg (by unfold offBitLen; omega)]

theorem registerWord_buffer {off : Nat} (h : 0x2C ≤ off) (s : State) : registerWord s off = none := by
  unfold registerWord
  rw [if_neg (by unfold offId; omega), if_neg (by unfold offParams; omega), if_neg (by unfold offCmd; omega),
    if_neg (by unfold offStatus; omega), if_neg (by unfold offRounds; omega), if_neg (by unfold offTextLen; omega),
    if_neg (by unfold offKeyLen; omega), if_neg (by unfold offBitLen; omega), if_neg (by unfold offOutLen; omega),
    if_neg (by unfold offOutBits; omega), if_neg (by unfold offTraceCount; omega)]

theorem readWord_buffer {off : Nat} (h : 0x2C ≤ off) (s : State) : readWord s off =
    wordOfBytes (bufferByte s off) (bufferByte s (off + 1)) (bufferByte s (off + 2)) (bufferByte s (off + 3)) := by
  rw [readWord, registerWord_buffer h]; rfl

theorem byte_readWord_buffer {off : Nat} (h : 0x2C ≤ off) (s : State) {k : Nat} (hk : k < 4) :
    (readWord s off).extractLsb' (8 * k) 8 = bufferByte s (off + k) := by
  rw [readWord_buffer h]
  obtain ⟨h0, h1, h2, h3⟩ := byte_wordOfBytes (bufferByte s off) (bufferByte s (off + 1)) (bufferByte s (off + 2))
    (bufferByte s (off + 3))
  interval_cases k
  · exact h0
  · exact h1
  · exact h2
  · exact h3

theorem implemented_iff {p : Params} {a : Nat} : implemented p a = true ↔ inInputs p a = true ∨ inOutputs p a = true :=
    by
  simp [implemented]

theorem run_next {M : Host.Core} {s t : M.State} (h : M.step s = .next t) (k : Nat) : M.run (k + 1) s = M.run k t := by
  simp only [Host.Core.run, h]

theorem run_succ {s t : State} (h : step s = .next t) (k : Nat) : Host.Core.run core (k + 1) s =
    Host.Core.run core k t :=
  run_next (M := core) h k

theorem runTransaction_busy {t : Transaction} {s : State} (hb : s.busy = true) :
    ∃ rs d, runTransaction t s = .next { s with responses := rs, draws := d } := by
  unfold runTransaction
  split
  · exact ⟨s.responses, s.draws, rfl⟩
  · split
    · split
      · exact ⟨_, _, rfl⟩
      · exact ⟨_, s.draws, rfl⟩
    · split
      · unfold runWrite; rw [if_pos hb]; exact ⟨_, s.draws, rfl⟩
      · exact ⟨_, s.draws, rfl⟩

/-- While BUSY a host event other than a reset touches only the host's channel. -/
theorem step_busy {s : State} {e : HostEvent} {rest : List HostEvent} (hb : s.busy = true) (h : HostMoves s e rest)
    (hr : ∀ x, e ≠ .reset x) :
    ∃ rs d b, step s = .next
      { s with host := if b = true then rest else s.host, wait := s.wait - 1, responses := rs, draws := d } := by
  rw [step_host h]
  cases e with
  | reset x => exact absurd rfl (hr x)
  | access t =>
    obtain ⟨rs, d, hx⟩ := runTransaction_busy (t := t) (s := { s with host := rest, wait := s.wait - 1 }) hb
    exact ⟨rs, d, true, hx⟩
  | poll a m v =>
    obtain ⟨rs, d, hx⟩ := runTransaction_busy (t := .memRead a 4) (s := { s with host := rest, wait := s.wait - 1 }) hb
    simp only [runEvent, runPoll, hx]
    split
    · exact ⟨rs, d, true, rfl⟩
    · exact ⟨rs, d, false, by simp [h.2]⟩

end Sys2Proof.Machine
end

