-- ==== Sys2Proof/Laws/Commands.lean ====
section
/-! SUPPORT. What validation and each command's result say: bounds of validated operands, the codec and the decimal
numeral of a round index, and that every result fits its buffers. -/

namespace Sys2Proof.Machine

/-- Only NOP has OPCODE 0 (30_encoding.md R81). -/
theorem opcode_ne_zero {i : Instr} (h : i ≠ .nop) : opcode i ≠ 0 := by
  cases i <;> first | decide | exact absurd rfl h

/-- The opcode map has one row per command (30_encoding.md R81). -/
theorem decodeOpcode_opcode (i : Instr) : decodeOpcode (opcode i) = i := by cases i <;> rfl

/-- What validation has checked of the operands of a command that passes it. -/
theorem validate_none_bounds {p : Params} {i : Instr} {l : Latched} (h : validate p i l = none) :
    isReserved i = false ∧ (usesKey i = true → 1 ≤ l.keyLen.toNat ∧ l.keyLen.toNat ≤ p.kMax) ∧
    (usesRounds i = true → 1 ≤ l.rounds.toNat ∧ l.rounds.toNat ≤ p.rMax) ∧
    (usesText i = true → 1 ≤ l.textLen.toNat ∧ l.textLen.toNat ≤ p.nMax) ∧
    (usesBits i = true → 1 ≤ l.bitLen.toNat ∧ l.bitLen.toNat ≤ 8 * p.nMax) := by
  unfold validate at h
  repeat' split at h
  all_goals first | (cases h; done) | skip
  rename_i h1 h2 h3 h4 h5 h6 h7 h8 h9 h10
  simp only [Bool.and_eq_true, decide_eq_true_eq, not_and] at *
  refine ⟨by simpa using h1, fun hu => ?_, fun hu => ?_, fun hu => ?_, fun hu => ?_⟩
  · have := h2 hu; have := h3 hu; omega
  · have := h4 hu; have := h5 hu; omega
  · have := h6 hu; have := h7 hu; omega
  · have := h8 hu; have := h9 hu; omega

theorem error_code_mem (e : ErrorCode) (h : e ≠ .encoding) : e.code ∈ reportedCodes := by
  cases e <;> first | decide | exact absurd rfl h

/-- Validation never reports EncodingError. -/
theorem validate_ne_encoding {p : Params} {i : Instr} {l : Latched} : validate p i l ≠ some .encoding := by
  unfold validate
  repeat' split
  all_goals simp

theorem decodeBits_error {s : BitString} {e : ErrorCode} (h : decodeBits s = .error e) : e = .decoding := by
  unfold decodeBits at h
  split at h
  · cases h
  · cases h; rfl

/-- No command reports EncodingError (93_implementation_defined.md U15). -/
theorem commandResult_error {i : Instr} {l : Latched} {e : ErrorCode} (h : commandResult i l = .error e) :
    e ≠ .encoding := by
  cases i <;> simp only [commandResult, encodeResult, decodeResult, deriveResult, mixResult, encryptResult,
    decryptResult, noResult, encryptCore, decryptCore] at h
  case decode =>
    split at h
    · cases h
    · rename_i e' h'; cases h; rw [decodeBits_error h']; decide
  case encrypt =>
    split at h
    · cases h
    · rename_i e' h'; cases h; rw [decodeBits_error h']; decide
  case decrypt =>
    split at h
    · cases h
    · rename_i e' h'; cases h; rw [decodeBits_error h']; decide
  all_goals (cases h; try decide)

theorem length_of_decodeBits {s : BitString} {t : Text} (h : decodeBits s = .ok t) : s.length % 8 = 0 ∧
    t.length = s.length / 8 := by
  unfold decodeBits at h
  split at h
  · cases h; simp [*]
  · cases h

theorem encodeText_packBits {s : BitString} (h : s.length % 8 = 0) : encodeText (packBits s) = s := by
  apply bits_ext
  · simp; omega
  · intro k _
    rw [getD_encodeText, getD_packBits, getLsbD_byteAt _ _ _ (by omega)]
    congr 1; omega

theorem decimalFrom_acc (f n : Nat) (acc : Text) : decimalFrom f n acc = decimalFrom f n [] ++ acc := by
  induction f generalizing n acc with
  | zero => simp [decimalFrom]
  | succ f ih =>
    simp only [decimalFrom]
    split
    · simp
    · rw [ih, ih (n / 10) [_]]; simp

theorem decimal_digits1 {r : Nat} (h : r ≤ 9) : decimal r = [BitVec.ofNat 8 (0x30 + r)] := by
  interval_cases r <;> rfl

theorem decimal_digits2 {r : Nat} (h1 : 10 ≤ r) (h : r ≤ 99) : decimal r = [BitVec.ofNat 8 (0x30 + r / 10),
    BitVec.ofNat 8 (0x30 + r % 10)] := by
  obtain ⟨f, hf⟩ : ∃ f, r + 1 = f + 2 := ⟨r - 1, by omega⟩
  have h2 : ¬ r / 10 = 0 := by omega
  have h3 : r / 10 / 10 = 0 := by omega
  have h4 : r / 10 % 10 = r / 10 := by omega
  rw [decimal, hf]
  simp only [decimalFrom, h2, h3, h4, if_true, if_false]

theorem decimal_digits3 {r : Nat} (h1 : 100 ≤ r) (h : r ≤ 999) : decimal r = [BitVec.ofNat 8 (0x30 + r / 100),
    BitVec.ofNat 8 (0x30 + r / 10 % 10), BitVec.ofNat 8 (0x30 + r % 10)] := by
  obtain ⟨f, hf⟩ : ∃ f, r + 1 = f + 3 := ⟨r - 2, by omega⟩
  have h2 : ¬ r / 10 = 0 := by omega
  have h3 : ¬ r / 10 / 10 = 0 := by omega
  have h4 : r / 10 / 10 / 10 = 0 := by omega
  have h5 : r / 10 / 10 % 10 = r / 100 := by omega
  rw [decimal, hf]
  simp only [decimalFrom, h2, h3, h4, h5, if_true, if_false]

theorem length_decimal {r : Nat} (h : r ≤ 255) : (decimal r).length = if r ≤ 9 then 1 else if r ≤ 99 then 2 else 3 := by
  split
  · rw [decimal_digits1 (by omega)]; rfl
  · split
    · rw [decimal_digits2 (by omega) (by omega)]; rfl
    · rw [decimal_digits3 (by omega) (by omega)]; rfl

theorem length_decimal_le (r : Nat) (h : r ≤ 255) : (decimal r).length ≤ 3 := by
  rw [length_decimal h]; split <;> [omega; (split <;> omega)]

/-- encryptCore never fails: every block is a whole number of bytes. -/
theorem encryptCore_ok (p k : Text) (n : Nat) : encryptCore p k n = .ok (packBits (encBlock k (formBlock p) n).bits) :=
  decodeBits_ok (by rw [(encBlock_halves (formBlock_halves p) n).length_bits]; omega)

theorem decryptCore_ok (p k : Text) (n : Nat) : decryptCore p k n = .ok (packBits (decBlock k n (formBlock p) n).bits)
    :=
  decodeBits_ok (by rw [(decBlock_halves (formBlock_halves p) n).length_bits]; omega)

theorem encryptResult_ok (l : Latched) : encryptResult l = .ok ⟨(encBlock l.keyText (formBlock l.text)
    l.rounds.toNat).bits, encryptTrace l.text l.keyText l.rounds.toNat⟩ := by
  rw [encryptResult, encryptCore_ok]
  simp only
  rw [encodeText_packBits]
  rw [(encBlock_halves (formBlock_halves l.text) _).length_bits]; omega

theorem decryptResult_ok (l : Latched) : decryptResult l = .ok ⟨(decBlock l.keyText l.rounds.toNat (formBlock l.text)
    l.rounds.toNat).bits, decryptTrace l.text l.keyText l.rounds.toNat⟩ := by
  rw [decryptResult, decryptCore_ok]
  simp only
  rw [encodeText_packBits]
  rw [(decBlock_halves (formBlock_halves l.text) _).length_bits]; omega

/-- A result of validated operands fits OUT and TRACE. -/
theorem commandResult_ok_bounds {p : Params} (hp : p.legal = true) {i : Instr} {l : Latched} {r : Result}
    (hv : validate p i l = none) (hk : l.key.length = p.kMax)
    (h : commandResult i l = .ok r) : r.bits.length ≤ 8 * outMax p ∧ (r.records = [] ∨ r.records.length =
      l.rounds.toNat + 3) ∧ r.records.length ≤ traceRecords p := by
  have hb := validate_none_bounds hv
  have hpl := params_legal_iff.1 hp
  cases i <;> simp only [commandResult, encodeResult, decodeResult, deriveResult, mixResult, noResult] at h
  case nop => cases h
  case encode =>
    cases h
    have := hb.2.2.2.1 rfl
    simp [Latched.text, outMax]; omega
  case decode =>
    have := hb.2.2.2.2 rfl
    split at h
    · rename_i t ht
      cases h
      have := length_of_decodeBits ht
      simp at this
      simp [outMax]; omega
    · cases h
  case derive =>
    cases h
    have h1 := hb.2.1 rfl
    have h2 := hb.2.2.1 rfl
    have := length_decimal_le l.rounds.toNat (by omega)
    simp [deriveKey, Latched.keyText, outMax]; omega
  case mix =>
    cases h
    have := hb.2.2.2.2 rfl
    simp [outMax]; omega
  case encrypt =>
    have h1 := hb.2.2.1 rfl
    have h2 := hb.2.2.2.1 rfl
    rw [encryptResult_ok] at h
    cases h
    have h3 := (encBlock_halves (k := l.keyText) (formBlock_halves l.text) l.rounds.toNat).length_bits
    have h4 : l.text.length ≤ l.textLen.toNat := by simp [Latched.text]
    simp only [encryptTrace, traceOf, encRounds, traceRecords, outMax, h3, List.length_cons, List.length_append,
      List.length_map, List.length_range, List.length_nil]
    exact ⟨by omega, .inr trivial, by omega⟩
  case decrypt =>
    have h1 := hb.2.2.1 rfl
    have h2 := hb.2.2.2.1 rfl
    rw [decryptResult_ok] at h
    cases h
    have h3 := (decBlock_halves (k := l.keyText) (n := l.rounds.toNat) (formBlock_halves l.text)
      l.rounds.toNat).length_bits
    have h4 : l.text.length ≤ l.textLen.toNat := by simp [Latched.text]
    simp only [decryptTrace, traceOf, decRounds, traceRecords, outMax, h3, List.length_cons, List.length_append,
      List.length_map, List.length_range, List.length_nil]
    exact ⟨by omega, .inr trivial, by omega⟩
  all_goals cases h

theorem formBlock_eq (t : Text) : (formBlock t).left = (encodeText t).take (4 * t.length) ∧
    (formBlock t).right = (encodeText t).drop (4 * t.length) := by
  have : ¬ (8 * t.length) % 2 = 1 := by omega
  simp [formBlock, padBits, splitBits, this]
  rw [show 8 * t.length / 2 = 4 * t.length by omega]; simp

theorem xorBits_xorBits (a b : BitString) (h : a.length = b.length) : xorBits (xorBits a b) b = a := by
  apply bits_ext
  · rw [length_xorBits _ _ (by rw [length_xorBits _ _ h, h]), length_xorBits _ _ h]
  · intro i _
    rw [getD_xorBits _ _ (by rw [length_xorBits _ _ h, h]), getD_xorBits _ _ h]; simp

/-- The text of a block of whole bytes forms that block again. -/
theorem formBlock_packBits {b : Block} {h : Nat} (hb : b.Halves (4*h)) : formBlock (packBits b.bits) = b := by
  have hl := hb.length_bits
  have e : encodeText (packBits b.bits) = b.bits := encodeText_packBits (by omega)
  have hlen : (packBits b.bits).length = h := by simp; omega
  have := formBlock_eq (packBits b.bits)
  rw [e, hlen] at this
  obtain ⟨h1, h2⟩ := this
  cases b with
  | mk l r =>
    have hl' : l.length = 4 * h := hb.1
    simp only [Block.bits] at h1 h2 ⊢
    rw [← hl', List.take_left' rfl] at h1
    rw [← hl', List.drop_left' rfl] at h2
    generalize formBlock _ = B at *
    cases B; simp_all

theorem packBits_formBlock (t : Text) : packBits (formBlock t).bits = t := by rw [bits_formBlock, packBits_encodeText]

/-- A BitString of whole bytes read from a buffer is those bytes (41_codec.md R120, R121). -/
theorem bitsOf_readRange_bytes (m : Memory) (a n k : Nat) (h : 8 * k ≤ 8 * n) : packBits (bitsOf (m.readRange a n)
    (8 * k)) = m.readRange a k := by
  apply text_ext
  · simp; omega
  · intro i hi
    simp at hi
    rw [Memory.getD_readRange _ _ _ _ (by omega), getD_packBits]
    apply byte_ext
    intro j hj
    rw [getLsbD_byteAt _ _ _ hj, getD_bitsOf _ _ _ (by omega), Memory.getD_readRange _ _ _ _ (by omega)]
    congr 1
    · congr 1; congr 1; omega
    · omega

theorem getD_rotate (k : Text) (a i : Nat) (ha : a < k.length) (hi : i < k.length) : (rotate k a).getD i 0#8 =
    k.getD ((i + a) % k.length) 0#8 := by
  simp only [rotate, List.getD_eq_getElem?_getD]
  congr 1
  by_cases h : i < k.length - a
  · rw [List.getElem?_append_left (by simp; omega), List.getElem?_drop, Nat.mod_eq_of_lt (by omega), Nat.add_comm]
  · rw [List.getElem?_append_right (by simp; omega), List.getElem?_take, List.length_drop, if_pos (by omega)]
    congr 1
    rw [Nat.mod_eq_sub_mod (by omega), Nat.mod_eq_of_lt (by omega)]; omega

theorem traceOf_round (t : Text) (rs : List Round) (b : Block) (i : Nat) (h : i < rs.length) :
    (traceOf t rs b)[i + 2]? = some (roundRecord rs[i]) := by
  simp [traceOf, List.getElem?_append, h]

theorem traceOf_last (t : Text) (rs : List Round) (b : Block) : (traceOf t rs b)[rs.length + 2]? = some (finalRecord b)
    := by
  simp [traceOf]

/-- The number a decimal numeral stands for. -/
def numeralValue (t : Text) : Nat := t.foldl (fun a c => 10 * a + (c.toNat - 0x30)) 0

theorem numeralValue_append (t : Text) (c : Byte) : numeralValue (t ++ [c]) = 10 * numeralValue t + (c.toNat - 0x30) :=
    by simp [numeralValue]

theorem numeralValue_decimalFrom (f n : Nat) (h : n < f) : numeralValue (decimalFrom f n []) = n := by
  induction f generalizing n with
  | zero => omega
  | succ f ih =>
    have hd : (BitVec.ofNat 8 (0x30 + n % 10)).toNat - 0x30 = n % 10 := by simp; omega
    simp only [decimalFrom]
    split
    · simp [numeralValue]; simp at hd; omega
    · rw [decimalFrom_acc, numeralValue_append, ih _ (by omega), hd]; omega

/-- Decrypt step `j` undoes encrypt round `n + 1 - j` (44_engine.md R187). -/
theorem decBlock_encBlock (k : Text) (n h : Nat) (b : Block) (hb : b.Halves h) (j : Nat) (hj : j ≤ n) :
    decBlock k n (encBlock k b n) j = encBlock k b (n - j) := by
  induction j with
  | zero => rfl
  | succ j ih =>
    rw [decBlock, ih (by omega)]
    obtain ⟨m, hm⟩ : ∃ m, n - j = m + 1 := ⟨n - j - 1, by omega⟩
    rw [hm, show n - (j + 1) = m by omega, show n + 1 - (j + 1) = m + 1 by omega, encBlock]
    have hm := encBlock_halves (k := k) hb m
    generalize encBlock k b m = B at *
    cases B
    simp only [encRound, decRound]
    rw [xorBits_xorBits]
    rw [length_mixBits, hm.1, hm.2]

theorem encBlock_decBlock (k : Text) (n h : Nat) (b : Block) (hb : b.Halves h) (j : Nat) (hj : j ≤ n) :
    encBlock k (decBlock k n b n) j = decBlock k n b (n - j) := by
  induction j with
  | zero => rfl
  | succ j ih =>
    rw [encBlock, ih (by omega)]
    obtain ⟨m, hm⟩ : ∃ m, n - j = m + 1 := ⟨n - j - 1, by omega⟩
    rw [hm, show n - (j + 1) = m by omega, decBlock]
    rw [show n + 1 - (m + 1) = j + 1 by omega]
    have hm := decBlock_halves (k := k) (n := n) hb m
    generalize decBlock k n b m = B at *
    cases B
    simp only [encRound, decRound]
    rw [xorBits_xorBits]
    rw [length_mixBits, hm.1, hm.2]

end Sys2Proof.Machine
end

