-- ==== Sys2Proof/Laws/Completion.lean ====
section
/-! SUPPORT. What a successful completion writes, and when a command in progress completes with its result. -/

namespace Sys2Proof.Machine

theorem packBits_pad (s : BitString) (i : Nat) : ((packBits s).getD (i / 8) 0#8).getLsbD (7 - i % 8) =
    s.getD i false := by
  rw [getD_packBits, getLsbD_byteAt _ _ _ (by omega)]; congr 1; omega

/-- Field `n` of a record, as the slot it is laid out in holds it. -/
theorem completeOk_field {s : State} (hp : s.params.legal = true) {r : Result}
    (hfit : r.records.length ≤ traceRecords s.params) {j : Nat} {rec : TraceRecord} (hr : r.records[j]? = some rec)
    (n : Nat) (hn : n < 9) {o size : Nat} {b : Text}
    (h : (recordFields rec)[n] = { offset := o, size := size, bytes := b }) {k : Nat} (hk : k < size) :
    (completeOk r s).slotByte j (o + k) = b.getD k 0#8 := by
  have := completeOk_read_field hp hr hfit (List.getElem_mem (l := recordFields rec) (n := n) hn)
    (k := k) (by rw [h]; exact hk)
  rw [h] at this
  exact this

/-- Every byte of a slot that no field covers is 0 (20_memory.md R58). -/
theorem completeOk_gap {s : State} (hp : s.params.legal = true) {r : Result}
    (hfit : r.records.length ≤ traceRecords s.params) {j : Nat} {rec : TraceRecord} (hr : r.records[j]? = some rec)
    {o : Nat} (ho : (0x8 ≤ o ∧ o < 0x100) ∨ (0x480 ≤ o ∧ o < 0x500) ∨ (0x600 ≤ o ∧ o < 0x800)) :
    (completeOk r s).slotByte j o = 0#8 := by
  have hj : j < r.records.length := by
    by_contra hx
    rw [List.getElem?_eq_none (by omega)] at hr
    cases hr
  have h := cellByte_recordsCells (r.records.take (traceRecords s.params)) 0 j o (by simp; omega)
    (by unfold slotBytes; omega)
  rw [Nat.zero_add] at h
  rw [State.slotByte, completeOk_read_trace hp, traceCells, h, recordCells]
  apply cellByte_no_field
  intro f hf
  simp only [recordFields, List.mem_cons, List.not_mem_nil, or_false] at hf
  rcases hf with rfl | rfl | rfl | rfl | rfl | rfl | rfl | rfl | rfl <;> simp only <;> omega

/-- A successful completion lays out each record as 20_memory.md R58 says. -/
theorem completeOk_slotHolds {s : State} (hp : s.params.legal = true) {r : Result}
    (hfit : r.records.length ≤ traceRecords s.params) {j : Nat} {rec : TraceRecord}
    (hr : r.records[j]? = some rec) (hf : RecordFits rec) : SlotHolds (completeOk r s) j rec := by
  obtain ⟨f1, f2, f3, f4, -, -, -, -, -, f10⟩ := hf
  have h0 := fun (k : Nat) (hk : k < 4) => completeOk_field hp hfit hr 0 (by omega) rfl hk
  have h1 := fun (k : Nat) (hk : k < 4) => completeOk_field hp hfit hr 1 (by omega) rfl hk
  simp only [Nat.zero_add] at h0
  have bits : ∀ n (hn : n < 9) (o size : Nat) (b : BitString),
      (recordFields rec)[n] = { offset := o, size := size, bytes := packBits b } →
      FieldBits (completeOk r s) j o size b := by
    intro n hn o size b h i hi
    rw [completeOk_field hp hfit hr n hn h (k := i / 8) (by omega)]
    exact packBits_pad b i
  refine ⟨?_, ?_, ?_, ?_, ?_, ?_, fun k hk => completeOk_field hp hfit hr 2 (by omega) rfl hk,
    bits 3 (by omega) _ _ _ rfl, bits 4 (by omega) _ _ _ rfl, bits 5 (by omega) _ _ _ rfl,
    bits 6 (by omega) _ _ _ rfl, bits 7 (by omega) _ _ _ rfl, bits 8 (by omega) _ _ _ rfl,
    fun o ho => completeOk_gap hp hfit hr ho⟩
  · rw [h0 0 (by omega)]; cases rec.kind <;> rfl
  · rw [h0 1 (by omega)]; simp; omega
  · rw [h0 2 (by omega)]; simp; omega
  · rw [h0 3 (by omega)]; simp; omega
  · have a := h1 0 (by omega)
    have b := h1 1 (by omega)
    rw [State.slotHalfword, show (4 : Nat) = 4 + 0 from rfl, a, show 4 + 0 + 1 = 4 + 1 from rfl, b]
    simp [halfwordBytes]; omega
  · have a := h1 2 (by omega)
    have b := h1 3 (by omega)
    rw [State.slotHalfword, show (6 : Nat) = 4 + 2 from rfl, a, show 4 + 2 + 1 = 4 + 3 from rfl, b]
    simp [halfwordBytes]; omega

theorem completeOk_keepsInputs {s : State} (hp : s.params.legal = true) (r : Result) : KeepsInputs s (completeOk r s) :=
  ⟨rfl, rfl, rfl, rfl, rfl, rfl, rfl, fun _ ha => completeOk_bufferByte hp r ha⟩

theorem completeOk_doneFrom (s : State) (r : Result) : DoneFrom s (completeOk r s) := ⟨rfl, rfl, rfl, rfl, rfl, rfl⟩

/-- The operands of a command in progress are the current registers and buffers (10_state.md R43). -/
theorem latches_of_inProgress {i : Instr} {s : State} (h : InProgress i s) : Latches s i (latchOperands (opcode i) s)
    := by
  have hb := h.inv.latched_busy
  rw [h.busy] at hb
  obtain ⟨l, hl⟩ := Option.isSome_iff_exists.1 hb
  have := h.inv.latched_current l hl
  rw [h.command] at this
  subst this
  exact ⟨h.busy, hl, rfl⟩

/-- A command whose operands pass validation completes with its result. -/
theorem exec_ok {i : Instr} {s : State} {l : Latched} {r : Result} (hn : i ≠ .nop) (h : Latches s i l) (hv :
    validate s.params i l = none)
    (hr : commandResult i l = .ok r) : exec i s = .next (completeOk r s) := by
  rw [exec_eq_runCommand hn, runCommand_latched h.1 h.2.1 h.2.2]
  unfold complete; rw [hv, hr]

/-- Operands in range pass every check of 40_command_lifecycle.md R104. -/
theorem validate_pass {p : Params} {i : Instr} {l : Latched} (h0 : isReserved i = false)
    (hk : usesKey i = true → 1 ≤ l.keyLen.toNat ∧ l.keyLen.toNat ≤ p.kMax)
    (hr : usesRounds i = true → 1 ≤ l.rounds.toNat ∧ l.rounds.toNat ≤ p.rMax)
    (ht : usesText i = true → 1 ≤ l.textLen.toNat ∧ l.textLen.toNat ≤ p.nMax)
    (hb : usesBits i = true → 1 ≤ l.bitLen.toNat ∧ l.bitLen.toNat ≤ 8 * p.nMax)
    (hd : i = .decode → l.bitLen.toNat % 8 = 0) : validate p i l = none := by
  unfold validate
  simp only [h0]
  rw [if_neg (by simp)]
  iterate 8 rw [if_neg]
  · rw [if_neg]
    simp only [Bool.and_eq_true, decide_eq_true_eq, not_and]; intro h; have := hd h; omega
  all_goals (simp only [Bool.and_eq_true, decide_eq_true_eq, not_and]; intro h)
  · have := hb h; omega
  · have := hb h; omega
  · have := ht h; omega
  · have := ht h; omega
  · have := hr h; omega
  · have := hr h; omega
  · have := hk h; omega
  · have := hk h; omega

/-- Operands that pass validation have a result. -/
theorem commandResult_isOk {p : Params} {i : Instr} {l : Latched} (hn : i ≠ .nop) (hv : validate p i l = none) : ∃ r,
    commandResult i l = .ok r := by
  have hb := (validate_none_bounds hv).1
  cases i <;> first | exact absurd rfl hn | (cases hb; done) | skip
  · exact ⟨_, rfl⟩
  · have h8 : l.bitLen.toNat % 8 = 0 := by
      by_contra hx
      have : validate p .decode l ≠ none := by
        unfold validate
        repeat' split
        all_goals simp_all
      exact this hv
    simp only [commandResult, decodeResult]
    rw [decodeBits_ok (by simpa using h8)]
    exact ⟨_, rfl⟩
  · exact ⟨_, rfl⟩
  · exact ⟨_, rfl⟩
  · exact ⟨_, encryptResult_ok l⟩
  · exact ⟨_, decryptResult_ok l⟩

theorem latchOperands_text {s : State} (op : BitVec 4) (h : s.textLen.toNat ≤ s.params.nMax) :
    (latchOperands op s).text = s.inputText := Memory.take_readRange _ _ _ _ h

theorem latchOperands_keyText {s : State} (op : BitVec 4) (h : s.keyLen.toNat ≤ s.params.kMax) :
    (latchOperands op s).keyText = s.keyText := Memory.take_readRange _ _ _ _ h

theorem usesKey_iff {i : Instr} : usesKey i = true ↔ i = .derive ∨ i = .mix ∨ i = .encrypt ∨ i = .decrypt := by
  cases i <;> simp [usesKey]

theorem usesRounds_iff {i : Instr} : usesRounds i = true ↔ i = .derive ∨ i = .encrypt ∨ i = .decrypt := by
  cases i <;> simp [usesRounds]

theorem usesText_iff {i : Instr} : usesText i = true ↔ i = .encode ∨ i = .encrypt ∨ i = .decrypt := by
  cases i <;> simp [usesText]

theorem usesBits_iff {i : Instr} : usesBits i = true ↔ i = .decode ∨ i = .mix := by
  cases i <;> simp [usesBits]

/-- Validation depends on the operands a command reads, and on nothing else (40_command_lifecycle.md R104). -/
theorem validate_congr {p : Params} {i : Instr} {l1 l2 : Latched} (hk : usesKey i = true → l1.keyLen = l2.keyLen)
    (hr : usesRounds i = true → l1.rounds = l2.rounds) (ht : usesText i = true → l1.textLen = l2.textLen)
    (hb : usesBits i = true → l1.bitLen = l2.bitLen) : validate p i l1 = validate p i l2 := by
  have k : ∀ f : BitVec 8 → Bool, (usesKey i && f l1.keyLen) = (usesKey i && f l2.keyLen) := fun f => by
    cases h : usesKey i
    · rfl
    · rw [hk h]
  have r : ∀ f : BitVec 8 → Bool, (usesRounds i && f l1.rounds) = (usesRounds i && f l2.rounds) := fun f => by
    cases h : usesRounds i
    · rfl
    · rw [hr h]
  have t : ∀ f : BitVec 8 → Bool, (usesText i && f l1.textLen) = (usesText i && f l2.textLen) := fun f => by
    cases h : usesText i
    · rfl
    · rw [ht h]
  have b : ∀ f : BitVec 16 → Bool, (usesBits i && f l1.bitLen) = (usesBits i && f l2.bitLen) := fun f => by
    cases h : usesBits i
    · rfl
    · rw [hb h]
  have d : (decide (i = .decode) && decide (l1.bitLen.toNat % 8 ≠ 0)) = (decide (i = .decode)
    && decide (l2.bitLen.toNat % 8 ≠ 0)) := by
    by_cases h : i = .decode
    · rw [hb (by rw [h]; rfl)]
    · simp [h]
  unfold validate
  rw [k (fun x => decide (x.toNat = 0)), k (fun x => decide (p.kMax < x.toNat)), r (fun x => decide (x.toNat = 0)),
    r (fun x => decide (p.rMax < x.toNat)),
    t (fun x => decide (x.toNat = 0)), t (fun x => decide (p.nMax < x.toNat)), b (fun x => decide (x.toNat = 0)),
      b (fun x => decide (8 * p.nMax < x.toNat)), d]

theorem readRange_congr {m1 m2 : Memory} {a n : Nat} (h : ∀ k, k < n → m1.read (a + k) = m2.read (a + k)) :
    m1.readRange a n = m2.readRange a n := by
  simp only [Memory.readRange]
  apply List.map_congr_left
  intro k hk; exact h k (by simpa using hk)

theorem completeOk_byte (r : Result) (s : State) {a : Nat} (ha : outBase ≤ a) : bufferByte (completeOk r s) a =
    if implemented s.params a then cellByte (outCells s.params (packBits r.bits) ++ traceCells s.params r.records)
      a else 0#8 := by
  show (if implemented s.params a then
    (s.mem.replaceOutputs (outCells s.params (packBits r.bits) ++ traceCells s.params r.records)).read a else 0#8) = _
  rw [Memory.read_replaceOutputs (fun c hc => inOutputs_ge_outBase (mem_outputs hc).1),
    if_neg (show ¬ a < outBase by omega)]

/-- What a successful completion leaves in OUT and TRACE depends on the parameters and the result alone. -/
theorem completeOk_outputs {s1 s2 : State} (h : s1.params = s2.params) (r : Result) (a : Nat) (ha :
    inOutputs s1.params a = true) :
    bufferByte (completeOk r s1) a = bufferByte (completeOk r s2) a := by
  rw [completeOk_byte r s1 (inOutputs_ge_outBase ha), completeOk_byte r s2 (inOutputs_ge_outBase ha), h]

/-- What a completion whose result is a text leaves in OUT (10_state.md R41). -/
theorem completeOk_text {s : State} (hp : s.params.legal = true) {recs : List TraceRecord} {x : Text} (hx :
    x.length ≤ outMax s.params) :
    let t := completeOk ⟨encodeText x, recs⟩ s
    t.outText = x ∧ t.outLen.toNat = x.length ∧ t.outBits.toNat = 8 * x.length ∧ OutZeroFrom t x.length := by
  have hom := outMax_le hp
  intro t
  have h1 : t.outLen.toNat = x.length := by
    simp only [t, completeOk_outLen, packBits_encodeText, BitVec.toNat_ofNat]; omega
  have hz : ∀ k, k < outMax s.params → t.mem.read (outBase + k) = x.getD k 0#8 := by
    intro k hk; have := completeOk_read_out hp ⟨encodeText x, recs⟩ hk; rwa [packBits_encodeText] at this
  refine ⟨?_, h1, ?_, ?_⟩
  · rw [State.outText, h1]
    apply text_ext
    · simp
    · intro k hk
      rw [Memory.length_readRange] at hk
      rw [Memory.getD_readRange _ _ _ _ hk, hz k (by omega)]
  · simp only [t, completeOk_outBits, BitVec.toNat_ofNat, length_encodeText]; omega
  · intro k hk hk2
    rw [hz k hk2, List.getD_eq_default _ _ hk]; rfl

theorem completeOk_traceZero {s : State} (hp : s.params.legal = true) (b : BitString) : TraceZeroFrom (completeOk ⟨b,
    []⟩ s) 0 :=
  fun _ o hj _ _ => completeOk_read_past hp _ o hj

end Sys2Proof.Machine
end

