-- ==== Sys2Proof/Laws/Invariant.lean ====
section
/-! SUPPORT. The operations a step is made of, one by one: each keeps the invariant. -/

namespace Sys2Proof.Machine

/-- Only the host's channel and the draw index move. -/
theorem Inv.channel {s u : State} (h : ChannelOnly s u) (hi : Inv s) : Inv u := by
  obtain ⟨_, _, _, _, rfl⟩ := h
  exact ⟨hi.1, hi.2, hi.3, hi.4, hi.5, hi.6, hi.7, hi.8, hi.9, hi.10, hi.11, hi.12, hi.13, hi.14⟩

theorem inv_raiseError {s : State} (e : ErrorCode) (he : e ≠ .encoding) (hi : Inv s) (hb : s.busy = true) :
    Inv (raiseError e s) where
  params_legal := hi.1
  memory_canonical := hi.2
  status_legal := by simp
  no_error_code := by simp
  error_code := fun _ => by simpa using error_code_mem e he
  last_op := fun h => by have := (hi.last_op h).1; simp_all
  latched_busy := by simp
  latched_current := by simp
  out_len := by simp
  out_fits := by simp
  trace_count := by simp
  failed_lengths := by simp
  done_out := by simp
  done_trace := by simp

theorem inv_completeOk {s : State} (hi : Inv s) (r : Result) (hb : s.busy = true)
    (h1 : r.bits.length ≤ 8 * outMax s.params) (h2 : r.records = [] ∨ 4 ≤ r.records.length) (h3 :
      r.records.length ≤ traceRecords s.params) : Inv (completeOk r s) where
  params_legal := hi.1
  memory_canonical := by simpa using completeOk_wf hi.1 hi.2 r
  status_legal := by simp
  no_error_code := by simp
  error_code := by simp
  last_op := fun h => by have := (hi.last_op h).1; simp_all
  latched_busy := by simp
  latched_current := by simp
  out_len := by
    have := outMax_le hi.1
    simp; omega
  out_fits := by
    have := outMax_le hi.1
    simp; omega
  trace_count := by
    have := params_legal_iff.1 hi.1
    rcases h2 with h2 | h2
    · left; simp [h2]
    · right; simp only [completeOk_traceCount, completeOk_params, traceRecords, BitVec.toNat_ofNat] at *; omega
  failed_lengths := by simp
  done_out := by
    intro _ k hk1 hk2
    have := outMax_le hi.1
    simp only [completeOk_outLen, BitVec.toNat_ofNat, length_packBits] at hk1
    simp only [completeOk_params] at hk2
    rw [completeOk_read_out hi.1 _ hk2, List.getD_eq_default _ _ (by simp; omega)]
    rfl
  done_trace := by
    intro _ j o hj _ _
    have := params_legal_iff.1 hi.1
    simp only [completeOk_traceCount, BitVec.toNat_ofNat, traceRecords] at hj h3
    exact completeOk_read_past hi.1 r o (by omega)

theorem inv_accept {s : State} {i : Instr} (h : i ≠ .nop) (hi : Inv s) : Inv (accept (opcode i) s) where
  params_legal := hi.1
  memory_canonical := hi.2
  status_legal := by simp
  no_error_code := by simp
  error_code := by simp
  last_op := fun h' => absurd h' (opcode_ne_zero h)
  latched_busy := by simp
  latched_current := by
    intro l hl; simp at hl; subst hl; rfl
  out_len := hi.out_len
  out_fits := hi.out_fits
  trace_count := hi.trace_count
  failed_lengths := by simp
  done_out := by simp
  done_trace := by simp

theorem inv_resetBlock {s : State} (hp : s.params.legal = true) : Inv (resetBlock s) where
  params_legal := hp
  memory_canonical := Memory.wf_atReset hp _
  status_legal := by simp
  no_error_code := by simp
  error_code := by simp
  last_op := by simp
  latched_busy := by simp
  latched_current := by simp
  out_len := by simp
  out_fits := by simp
  trace_count := by simp
  failed_lengths := by simp
  done_out := by simp
  done_trace := by simp

theorem inv_mem {s : State} {m : Memory} (hi : Inv s) (hb : s.busy = false) (hm : m.wf s.params = true) (ho : ∀ a,
    inOutputs s.params a = true → m.read a = s.mem.read a) : Inv { s with mem := m } where
  params_legal := hi.1
  memory_canonical := hm
  status_legal := hi.3
  no_error_code := hi.4
  error_code := hi.5
  last_op := hi.6
  latched_busy := hi.7
  latched_current := by
    have h := hi.latched_busy
    intro l hl
    simp only at hl
    rw [hl, hb] at h; cases h
  out_len := hi.9
  out_fits := hi.10
  trace_count := hi.11
  failed_lengths := hi.12
  done_out := by
    intro hd k h1 h2
    have h3 := outMax_le hi.1
    simp only at h1 h2 ⊢
    rw [ho _ (inOutputs_iff.2 (by simp only [outBase]; omega))]
    exact hi.done_out hd k h1 h2
  done_trace := by
    intro hd j o h1 h2 h3
    have h4 := hi.done_trace hd j o h1 h2 h3
    simp only [State.slotByte] at h1 h2 h3 h4 ⊢
    rw [ho, h4]
    refine inOutputs_iff.2 (.inr ?_)
    simp only [slotBase, traceBase, slotBytes] at h3 ⊢
    have : j + 1 ≤ traceRecords s.params := h2
    have := Nat.mul_le_mul_left 0x800 this
    omega

theorem storeBytes_outputs {s : State} (hp : s.params.legal = true) (off : Nat) (v : Word) (a : Nat) (ha :
    inOutputs s.params a = true) :
    (storeBytes off v s).mem.read a = s.mem.read a := by
  rw [storeBytes_read hp, if_neg]
  intro h
  have := inInputs_lt_outBase hp h.2.2
  have := inOutputs_ge_outBase ha
  omega

theorem inv_lens {s : State} {a b c : BitVec 8} {d : BitVec 16} (hi : Inv s) (hb : s.busy = false) :
    Inv { s with rounds := a, textLen := b, keyLen := c, bitLen := d } := by
  refine ⟨hi.1, hi.2, hi.3, hi.4, hi.5, hi.6, hi.7, ?_, hi.9, hi.10, hi.11, hi.12, hi.13, hi.14⟩
  have h := hi.latched_busy
  intro l hl
  simp only at hl
  rw [hl, hb] at h; cases h

theorem inv_storeWord {s : State} (hi : Inv s) (hb : s.busy = false) (off : Nat) (v : Word) : Inv (storeWord off v s)
    := by
  unfold storeWord
  repeat' split
  · exact inv_lens hi hb
  · exact inv_lens hi hb
  · exact inv_lens hi hb
  · exact inv_lens hi hb
  · obtain ⟨m, hm⟩ := storeBytes_eq off v s
    have h1 := storeBytes_wf hi.1 hi.2 off v
    have h2 := storeBytes_outputs hi.1 off v
    rw [hm] at h1 h2 ⊢
    exact inv_mem hi hb h1 h2

end Sys2Proof.Machine
end

