-- ==== Sys2Proof/Laws/PerInstr.lean ====
section
/-! SUPPORT. The per-instruction law: a command is well formed and is selected by its OPCODE alone. -/

namespace Sys2Proof.Laws.OpcodeAlone

/-- Every CMD word whose OPCODE field is that of `i` decodes to `i`, whatever its bits [31:4] (30_encoding.md R80, R82),
and `i` has nothing else to check. -/
def Statement (i : Instr) : Prop :=
  i.wellFormed = true ∧ ∀ v : Word, opcodeField v = opcode i → decode v = i

theorem of_map {i : Instr} (hw : i.wellFormed = true) (h : decodeOpcode (opcode i) = i) : Statement i :=
  ⟨hw, fun v hv => by rw [decode, hv, h]⟩

theorem nop : Statement .nop := of_map rfl rfl
theorem encode : Statement .encode := of_map rfl rfl
theorem decode : Statement .decode := of_map rfl rfl
theorem derive : Statement .derive := of_map rfl rfl
theorem mix : Statement .mix := of_map rfl rfl
theorem encrypt : Statement .encrypt := of_map rfl rfl
theorem decrypt : Statement .decrypt := of_map rfl rfl
theorem reserved7 : Statement .reserved7 := of_map rfl rfl
theorem reserved8 : Statement .reserved8 := of_map rfl rfl
theorem reserved9 : Statement .reserved9 := of_map rfl rfl
theorem reservedA : Statement .reservedA := of_map rfl rfl
theorem reservedB : Statement .reservedB := of_map rfl rfl
theorem reservedC : Statement .reservedC := of_map rfl rfl
theorem reservedD : Statement .reservedD := of_map rfl rfl
theorem reservedE : Statement .reservedE := of_map rfl rfl
theorem reservedF : Statement .reservedF := of_map rfl rfl

end Sys2Proof.Laws.OpcodeAlone
end

