-- ==== Sys2Proof/Laws/Program.lean ====
section
/-! SUPPORT. What a run of queued host writes leaves, and which answers a program's statements call for: the laws
behind the host program notation. -/

namespace Sys2Proof.Machine

/-- Store a list of words, each at its offset, in order. -/
def storeAll (ps : List (Nat × Word)) (s : State) : State := ps.foldl (fun s p => storeWord p.1 p.2 s) s

theorem storeWord_busy (off : Nat) (v : Word) (s : State) : (storeWord off v s).busy = s.busy := by
  unfold storeWord
  repeat' split
  iterate 4 rfl
  obtain ⟨m, hm⟩ := storeBytes_eq off v s; rw [hm]

/-- `s` with the host's channel replaced. -/
def withChannel (h : List HostEvent) (rs : List Response) (w : Nat) (s : State) : State :=
  { s with host := h, responses := rs, wait := w }

theorem storeByte_withChannel (a : Nat) (v : Byte) (h : List HostEvent) (rs : List Response) (w : Nat) (s : State) :
    storeByte a v (withChannel h rs w s) = withChannel h rs w (storeByte a v s) := by
  unfold storeByte withChannel
  split <;> rfl

theorem storeWord_withChannel (off : Nat) (v : Word) (h : List HostEvent) (rs : List Response) (w : Nat) (s : State) :
    storeWord off v (withChannel h rs w s) = withChannel h rs w (storeWord off v s) := by
  unfold storeWord
  repeat' split
  iterate 4 rfl
  unfold storeBytes
  simp only [storeByte_withChannel]

theorem storeAll_withChannel (ps : List (Nat × Word)) (h : List HostEvent) (rs : List Response) (w : Nat) (s : State) :
    storeAll ps (withChannel h rs w s) = withChannel h rs w (storeAll ps s) := by
  induction ps generalizing s with
  | nil => rfl
  | cons p ps ih =>
    simp only [storeAll, List.foldl_cons] at ih ⊢
    rw [storeWord_withChannel, ih]

/-- Writes the host has queued while the block is idle store their words. -/
theorem run_writes (ps : List (Nat × Word)) : ∀ (s : State) (rest : List HostEvent), s.busy = false →
    (∀ p ∈ ps, p.1 < windowBytes ∧ p.1 % 4 = 0 ∧ p.1 ≠ offCmd) →
    s.host = ps.map (fun p => writeEvent s.params p.1 p.2) ++ rest →
    ∃ rs w, Host.Core.run core ps.length s = .next (withChannel rest rs w (storeAll ps s)) := by
  induction ps with
  | nil => intro s rest _ _ hh; exact ⟨s.responses, s.wait, by simp at hh; subst hh; rfl⟩
  | cons p ps ih =>
    intro s rest hb hp hh
    have h1 := hp p (by simp)
    have hs := step_write_idle hb h1.1 h1.2.1 h1.2.2 (v := p.2) (hostMoves_idle hb hh)
    have h2 := storeWord_busy p.1 p.2 s
    have h3 := (storeWord_params p.1 p.2 s).1
    obtain ⟨rs, w, hr⟩ := ih (answered (.write .okay) (ps.map (fun p => writeEvent s.params p.1 p.2) ++ rest)
      (s.wait - 1) (storeWord p.1 p.2 s)) rest (h2.trans hb) (fun q hq => hp q (by simp [hq])) (by simp only [answered, h3])
    refine ⟨rs, w, (run_succ hs _).trans (hr.trans (congrArg _ ?_))⟩
    have h4 := storeAll_withChannel ps (ps.map (fun p => writeEvent s.params p.1 p.2) ++ rest)
      (.write .okay :: (storeWord p.1 p.2 s).responses) (s.wait - 1) (storeWord p.1 p.2 s)
    exact (congrArg (withChannel rest rs w) h4).trans rfl

/-- Reads the host has queued while the block is idle answer the words at their offsets, and change nothing else. -/
theorem run_reads (reads : List (Nat × Word)) : ∀ (s : State), s.busy = false →
    (∀ x ∈ reads, x.1 < windowBytes ∧ x.1 % 4 = 0) →
    s.host = reads.map (fun x => HostEvent.access (.memRead (s.params.base + x.1) 4)) →
    ∃ w, Host.Core.run core reads.length s =
      .next (withChannel [] ((reads.map fun x => Response.read .okay (readWord s x.1)).reverse ++ s.responses) w s) := by
  induction reads with
  | nil => intro s _ _ hh; exact ⟨s.wait, by simp at hh; rw [← hh]; rfl⟩
  | cons x xs ih =>
    intro s hb hl hh
    obtain ⟨h1, h2⟩ := hl x (by simp)
    have hs := step_read_idle hb h1 h2 (hostMoves_idle hb hh)
    obtain ⟨w, hr⟩ := ih (answered (.read .okay (readWord s x.1))
      (xs.map fun y => .access (.memRead (s.params.base + y.1) 4)) (s.wait - 1) s) hb
      (fun y hy => hl y (by simp [hy])) rfl
    refine ⟨w, (run_succ hs _).trans (hr.trans ?_)⟩
    simp only [List.map_cons, List.reverse_cons, List.append_assoc, List.singleton_append]
    rfl

/-- The words that load the first `4 n` bytes of a text into TEXT_IN (30_encoding.md R87). -/
def textPairs (x : Text) (n : Nat) : List (Nat × Word) := (List.range n).map fun w => (textInBase + 4 * w, textWord x w)

/-- What those words leave in the buffers. -/
theorem storeAll_textPairs (x : Text) (n : Nat) (s : State) (hp : s.params.legal = true) (hn : n ≤ 64) :
    ∃ m, storeAll (textPairs x n) s = { s with mem := m } ∧ ∀ b, m.read b =
      if 0x100 ≤ b ∧ b < 0x100 + 4 * n ∧ b < 0x100 + s.params.nMax then x.getD (b - 0x100) 0#8 else s.mem.read b := by
  have hpl := params_legal_iff.1 hp
  induction n with
  | zero => exact ⟨s.mem, rfl, fun b => by rw [if_neg (by omega)]⟩
  | succ n ih =>
    obtain ⟨m, hm, hr⟩ := ih (by omega)
    have : storeAll (textPairs x (n+1)) s = storeWord (textInBase + 4 * n) (textWord x n) (storeAll (textPairs x n) s)
      := by
      simp [storeAll, textPairs, List.range_succ]
    rw [this, hm, storeWord_buffer (by unfold textInBase; omega)]
    obtain ⟨m2, hm2⟩ := storeBytes_eq (textInBase + 4 * n) (textWord x n) { s with mem := m }
    have h2 := storeBytes_read (s := { s with mem := m }) hp (textInBase + 4 * n) (textWord x n)
    rw [hm2] at h2 ⊢
    refine ⟨m2, rfl, fun b => ?_⟩
    have h2b := h2 b
    simp only at h2b
    rw [h2b, hr b]
    have hin : (0x100 ≤ b ∧ b < 0x100 + s.params.nMax) ∨ (0x200 ≤ b ∧ b < 0x200 + s.params.kMax) ↔
      inInputs s.params b = true := inInputs_iff.symm
    by_cases h : textInBase + 4 * n ≤ b ∧ b < textInBase + 4 * n + 4 ∧ inInputs s.params b = true
    · rw [if_pos h]
      have h3 := hin.2 h.2.2
      simp only [textInBase] at h ⊢
      rw [if_pos (by omega)]
      obtain ⟨j, hj, rfl⟩ : ∃ j, j < 4 ∧ b = 0x100 + 4 * n + j := ⟨b - (0x100 + 4 * n), by omega, by omega⟩
      rw [Nat.add_sub_cancel_left, show 0x100 + 4 * n + j - 0x100 = 4 * n + j by omega]
      obtain ⟨e0, e1, e2, e3⟩ := byte_wordOfBytes (x.getD (4 * n) 0) (x.getD (4 * n + 1) 0) (x.getD (4 * n + 2) 0)
        (x.getD (4 * n + 3) 0)
      interval_cases j
      · exact e0
      · exact e1
      · exact e2
      · exact e3
    · rw [if_neg h]
      have h3 := hin
      simp only [textInBase] at h ⊢
      by_cases hc : 0x100 ≤ b ∧ b < 0x100 + 4 * n ∧ b < 0x100 + s.params.nMax
      · rw [if_pos hc, if_pos (by omega)]
      · rw [if_neg hc, if_neg]
        intro h4
        apply h
        refine ⟨by omega, by omega, hin.1 (by omega)⟩

/-- What is stated of a statement's events says nothing of which events they are. -/
theorem statedEvents_events (p : Params) (st : HostStatement) : (statedEvents p st).map Prod.fst = expand p st := by
  simp [statedEvents, Function.comp_def]

theorem answersAfterAll_append (es fs : List (HostEvent × Option Word)) : ∀ rs : List Response,
    answersAfterAll (es ++ fs) rs = (answersAfterAll es rs).bind (answersAfterAll fs) := by
  induction es with
  | nil => exact fun _ => rfl
  | cons e es ih =>
    intro rs
    simp only [List.cons_append, answersAfterAll]
    cases answersAfter e rs with
    | none => rfl
    | some rest => exact ih rest

@[simp] theorem programMet_nil (p : Params) (rs : List Response) : programMet p [] rs = true ↔ rs = [] := by
  simp [programMet, answersAfterAll]

/-- A read with no data stated calls for one answer to a read. -/
@[simp] theorem programMet_rd (p : Params) (off : Nat) (program : List HostStatement) (status : BusStatus) (d : Word)
    (rs : List Response) :
    programMet p (.rd off none :: program) (.read status d :: rs) = programMet p program rs := rfl

/-- A read with data stated calls for that data, answered OKAY. -/
@[simp] theorem programMet_rd_stated (p : Params) (off : Nat) (v : Word) (program : List HostStatement) (d : Word)
    (rs : List Response) :
    programMet p (.rd off (some v) :: program) (.read .okay d :: rs) = true ↔ d = v ∧ programMet p program rs = true := by
  have h : answersAfterAll ((HostStatement.rd off (some v) :: program).flatMap (statedEvents p))
      (.read .okay d :: rs) =
      if d = v then answersAfterAll (program.flatMap (statedEvents p)) rs else none := by
    by_cases hv : d = v <;> simp [statedEvents, expand, statedData, answersAfterAll, answersAfter, hv]
  rw [programMet, h]
  by_cases hv : d = v <;> simp [hv, programMet]

end Sys2Proof.Machine
end

