-- ==== Sys2Proof/Tests/Slice0.lean ====
section
/-! SUPPORT. Tests: the checks of WellFormed on ill-formed terms, decoding on words written out from 30_encoding.md, one
step per command against 95_test_vectors.md, and for each obligation with hypotheses a witness that meets them. -/

namespace Sys2Proof.Machine.Tests

/-! ## WellFormed smoke -/

theorem test_params_default : Params.default.legal = true := by decide
theorem test_params_nMax_zero : { Params.default with nMax := 0 }.legal = false := by decide
theorem test_params_nMax_256 : { Params.default with nMax := 256 }.legal = false := by decide
theorem test_params_kMax_zero : { Params.default with kMax := 0 }.legal = false := by decide
theorem test_params_kMax_253 : { Params.default with kMax := 253 }.legal = false := by decide
theorem test_params_rMax_zero : { Params.default with rMax := 0 }.legal = false := by decide
theorem test_params_rMax_256 : { Params.default with rMax := 256 }.legal = false := by decide
theorem test_params_base_unaligned : { Params.default with base := 0x80000 }.legal = false := by decide
theorem test_access_size : legalAccess 0x100 2 = false ∧ legalAccess 0x100 8 = false := by decide
theorem test_access_alignment : legalAccess 0x102 4 = false ∧ legalAccess 0x104 4 = true := by decide
theorem test_wr_unaligned : (HostStatement.wr 0x102 0).wellFormed = false := by decide
theorem test_rd_outside : (HostStatement.rd 0x100000 (some 0)).wellFormed = false := by decide
theorem test_poll_unaligned : (HostStatement.poll 0xD 1 0).wellFormed = false := by decide
theorem test_loadtext_long : (HostStatement.loadtext (List.replicate 256 0)).wellFormed = false := by
  simp only [HostStatement.wellFormed, List.length_replicate]
  rfl
theorem test_loadkey_long : (HostStatement.loadkey (List.replicate 256 0)).wellFormed = false := by
  simp only [HostStatement.wellFormed, List.length_replicate]
  rfl
theorem test_loadbits_short : (HostStatement.loadbits [0xFF] 9).wellFormed = false := by decide
theorem test_loadbits_long : (HostStatement.loadbits (List.replicate 257 0) 8).wellFormed = false := by
  simp only [HostStatement.wellFormed, List.length_replicate]
  rfl
theorem test_rounds_wide : (HostStatement.rounds 256).wellFormed = false := by decide

/-! ## Decoding: the words of 30_encoding.md R80 and R81, bits [31:4] of every kind -/

theorem test_decode_zero_high :
    [0x0, 0x1, 0x2, 0x3, 0x4, 0x5, 0x6, 0x7].map decode =
      [.nop, .encode, .decode, .derive, .mix, .encrypt, .decrypt, .reserved7] := by decide
theorem test_decode_reserved :
    [0x8, 0x9, 0xA, 0xB, 0xC, 0xD, 0xE, 0xF].map decode =
      [.reserved8, .reserved9, .reservedA, .reservedB, .reservedC, .reservedD, .reservedE, .reservedF] := by decide
theorem test_decode_ignores_high :
    [0xFFFFFFF0, 0xABCDEF15, 0x00000016, 0x80000007, 0x12345673, 0xFFFFFFFF].map decode =
      [.nop, .encrypt, .decrypt, .reserved7, .derive, .reservedF] := by decide
theorem test_decodeTableWord :
    decodeTableWord 32 0xABCDEF12 = some .decode ∧ decodeTableWord 8 0x04 = some .mix ∧
      decodeTableWord 40 0x05 = none := by decide
theorem test_withFetchWord :
    (State.reset.withFetchWord 32 0xABCDEF15).host = [.access (.memWrite 8 4 0xABCDEF15)] := by decide

/-! ## States for the tests -/

/-- An idle block whose host has loaded a text, a key and the four length registers, every other byte 0. -/
def loaded (p : Params) (text key : Text) (rounds textLen keyLen : BitVec 8) (bitLen : BitVec 16) : State :=
  { State.reset with
    params := p
    rounds := rounds
    textLen := textLen
    keyLen := keyLen
    bitLen := bitLen
    mem := { cells := cellsAt textInBase text ++ cellsAt keyBase key, fresh := [], outFresh := false, epoch := 0 } }

/-- The state after the acceptance of command `i`. -/
def running (i : Instr) (s : State) : State := accept (opcode i) s

/-- A state of the outcome, `s` where there is none. -/
def after (o : Host.Outcome State Fault Refusal) (s : State) : State :=
  match o with
  | .next t => t
  | _ => s

/-- The state command `i`, accepted in state `s`, completes in. -/
def completed (i : Instr) (s : State) : State := after (exec i (running i s)) s

/-- "AB", "key", 2 rounds: Scenario B of 95_test_vectors.md 1.2. -/
def scenarioB : State := loaded Params.default [0x41, 0x42] [0x6B, 0x65, 0x79] 2 2 3 0

/-- "3]", "key", 2 rounds: the ciphertext of Scenario B. -/
def scenarioB2 : State := loaded Params.default [0x33, 0x5D] [0x6B, 0x65, 0x79] 2 2 3 0

/-- STATUS, OUT_LEN, OUT_BITS, TRACE_COUNT and the result text. -/
def outcomeOf (t : State) : Word × Nat × Nat × Nat × Text :=
  (statusWord t, t.outLen.toNat, t.outBits.toNat, t.traceCount.toNat, t.mem.readRange outBase t.outLen.toNat)

/-! ## Commands: expected values of 95_test_vectors.md sections 1 and 2 -/

/-- L1 and L2: a NOP keeps STATUS. -/
theorem test_nop : statusWord (after (exec .nop (completed .encrypt scenarioB)) scenarioB) = 0x00000502 := by decide

/-- L6: STATUS right after acceptance. -/
theorem test_accepted : statusWord (running .encrypt scenarioB) = 0x00000501 := by decide

/-- V2: every byte is a character. -/
theorem test_encode_v2 :
    outcomeOf (completed .encode (loaded Params.default [0x00, 0xFF] [] 0 2 0 0)) =
      (0x00000102, 2, 16, 0, [0x00, 0xFF]) := by decide

/-- V7: TEXT_LEN = 33. -/
theorem test_encode_v7 :
    outcomeOf (completed .encode (loaded Params.default [] [] 0 33 0 0)) = (0x00000164, 0, 0, 0, []) := by decide

/-- V5: eight of sixteen bits. -/
theorem test_decode_v5 :
    outcomeOf (completed .decode (loaded Params.default [0x33, 0x5D] [] 0 0 0 8)) =
      (0x00000202, 1, 8, 0, [0x33]) := by decide

/-- V10: CapacityError before DecodingError. -/
theorem test_decode_v10 :
    outcomeOf (completed .decode (loaded Params.default [] [] 0 0 0 260)) = (0x00000264, 0, 0, 0, []) := by decide

/-- V28, r = 3 and a wrap of the two-digit V29: "ab16". -/
theorem test_derive_v29 :
    outcomeOf (completed .derive (loaded Params.default [] [0x61, 0x62] 16 0 2 0)) =
      (0x00000302, 4, 32, 0, [0x61, 0x62, 0x31, 0x36]) := by decide

/-- V28, r = 1: "eyk1". -/
theorem test_derive_v28 :
    outcomeOf (completed .derive (loaded Params.default [] [0x6B, 0x65, 0x79] 1 0 3 0)) =
      (0x00000302, 4, 32, 0, [0x65, 0x79, 0x6B, 0x31]) := by decide

/-- V35: 20 bits, the key stream wraps and the last four bits are zero. -/
theorem test_mix_v35 :
    outcomeOf (completed .mix (loaded Params.default [0xFF, 0xFF, 0xFF] [0x6B, 0x31] 0 0 2 20)) =
      (0x00000402, 3, 20, 0, [0xC1, 0x9B, 0xC0]) := by decide

/-- V38a: an empty key. -/
theorem test_mix_v38a :
    outcomeOf (completed .mix (loaded Params.default [] [] 0 0 0 8)) = (0x00000414, 0, 0, 0, []) := by decide

/-- V42: odd TEXT_LEN, halves of 12 bits. -/
theorem test_encrypt_v42 :
    outcomeOf (completed .encrypt (loaded Params.default [0x41, 0x42, 0x43] [0x6B] 1 3 1 0)) =
      (0x00000502, 3, 24, 4, [0x24, 0x35, 0xB1]) := by decide

/-- Scenario B, the trace words of slot 3. -/
theorem test_encrypt_trace :
    [0x000, 0x004, 0x100, 0x200, 0x280, 0x300, 0x380, 0x400, 0x500].map
      (fun o => readWord (completed .encrypt scenarioB) (slotBase 3 + o)) =
      [0x04020203, 0x00100008, 0x32656B79, 0x1F, 0x42, 0x33, 0x33, 0x5D, 0x5D33] := by decide

/-- Scenario B: the text comes back. -/
theorem test_decrypt_b :
    outcomeOf (completed .decrypt scenarioB2) = (0x00000602, 2, 16, 5, [0x41, 0x42]) := by decide

/-- Scenario B, the trace words of DECRYPT's slot 2: step 1 uses round key 2. -/
theorem test_decrypt_trace :
    [0x000, 0x004, 0x100, 0x200, 0x280, 0x300, 0x380, 0x400, 0x500].map
      (fun o => readWord (completed .decrypt scenarioB2) (slotBase 2 + o)) =
      [0x04020103, 0x00100008, 0x32656B79, 0x1F, 0x33, 0x5D, 0x42, 0x33, 0x3342] := by decide

/-- L3 and L4, and the same of every reserved command. -/
theorem test_reserved :
    [Instr.reserved7, .reserved8, .reserved9, .reservedA, .reservedB, .reservedC, .reservedD, .reservedE,
      .reservedF].map (fun i => statusWord (completed i scenarioB)) =
      [0x774, 0x874, 0x974, 0xA74, 0xB74, 0xC74, 0xD74, 0xE74, 0xF74] := by decide

/-! ## The host: expected values of 95_test_vectors.md 2.1 -/

/-- The idle block of Scenario B with host events to come. -/
def hosted (es : List HostEvent) : State := { scenarioB with host := es }

/-- B2: PARAMS. -/
theorem test_read_params :
    (after (step (hosted [.access (.memRead 4 4)])) scenarioB).responses = [.read .okay 0x01102020] := by decide

/-- B12: a misaligned read. -/
theorem test_read_misaligned :
    (after (step (hosted [.access (.memRead 0x102 4)])) scenarioB).responses = [.read .error 0] := by decide

/-- B14: bytes 32 to 35 of TEXT_IN are unimplemented. -/
theorem test_write_unimplemented :
    readWord (after (step (hosted [.access (.memWrite 0x120 4 0xFFFFFFFF)])) scenarioB) 0x120 = 0 := by decide

/-- B8: reserved bits of ROUNDS. -/
theorem test_write_rounds :
    readWord (after (step (hosted [.access (.memWrite 0x10 4 0xFFFFFF05)])) scenarioB) 0x10 = 5 := by decide

/-- B18: a write while BUSY. -/
theorem test_write_busy :
    (after (step { running .encode scenarioB with wait := 1, host := [.access (.memWrite 0x14 4 3)] })
      scenarioB).responses = [.write .error] := by decide

/-- P1: `rd PARAMS -> 0x01102020` is met by the answer to its read, and another value is not. -/
theorem test_rd_stated :
    let answers := (after (step (hosted (expand Params.default (.rd 4 (some 0x01102020))))) scenarioB).responses
    programMet Params.default [.rd 4 (some 0x01102020)] answers = true ∧
      programMet Params.default [.rd 4 (some 0x01102021)] answers = false := by decide

/-- P2's first lines: the poll takes every answer up to BUSY = 0, and the reads after it have the data stated. -/
theorem test_program_met :
    let program : List HostStatement :=
      [.rounds 1, .run .derive, .rd 0xC (some 0x302), .rd 0x20 (some 4), .rd 0x300 none]
    let head : List Response := [.write .okay, .write .okay, .read .okay 0x301, .read .okay 0x302, .read .okay 0x302]
    programMet Params.default program (head ++ [.read .okay 4, .read .okay 0x316B7965]) = true ∧
      programMet Params.default program (head ++ [.read .okay 5, .read .okay 0x316B7965]) = false ∧
      programMet Params.default program (head ++ [.read .okay 4]) = false := by decide

/-! ## Witnesses of the obligations' hypotheses -/

/-- A loaded block satisfies the invariant. -/
theorem loaded_inv {p : Params} {text key : Text} (hp : p.legal = true) (rounds textLen keyLen : BitVec 8)
    (bitLen : BitVec 16) (hm : (loaded p text key rounds textLen keyLen bitLen).mem.wf p = true) :
    Inv (loaded p text key rounds textLen keyLen bitLen) where
  params_legal := hp
  memory_canonical := hm
  status_legal := by simp [loaded, State.reset]
  no_error_code := fun _ => rfl
  error_code := nofun
  last_op := fun _ => ⟨rfl, rfl, rfl⟩
  latched_busy := rfl
  latched_current := nofun
  out_len := by simp [loaded, State.reset]
  out_fits := Nat.zero_le _
  trace_count := .inl rfl
  failed_lengths := nofun
  done_out := nofun
  done_trace := nofun

/-- A command accepted in a loaded block is in progress. -/
theorem running_inProgress {i : Instr} {s : State} (hi : i ≠ .nop) (h : Inv s) : InProgress i (running i s) :=
  ⟨inv_accept hi h, rfl, rfl⟩

theorem scenarioB_inv : Inv scenarioB := loaded_inv (by decide) 2 2 3 0 (by decide)

theorem scenarioB2_inv : Inv scenarioB2 := loaded_inv (by decide) 2 2 3 0 (by decide)

/-- Scenario B with command `i` in progress and one host event before its completion. -/
def busyWith (i : Instr) (e : HostEvent) : State := { running i scenarioB with wait := 1, host := [e] }

theorem busyWith_moves (i : Instr) (e : HostEvent) : HostMoves (busyWith i e) e [] := ⟨rfl, rfl⟩

theorem hosted_moves (e : HostEvent) (rest : List HostEvent) : HostMoves (hosted (e :: rest)) e rest := ⟨rfl, rfl⟩

/-- Idle, busy, and with a transaction in flight. -/
theorem witness_ResetSetsEveryRegister :
    HostMoves (hosted [.reset none]) (.reset none) [] ∧
      HostMoves (busyWith .mix (.reset none)) (.reset none) [] ∧
      HostMoves (busyWith .mix (.reset (some (.memWrite 8 4 1)))) (.reset (some (.memWrite 8 4 1))) [] :=
  ⟨hosted_moves _ _, busyWith_moves _ _, busyWith_moves _ _⟩

theorem witness_ResetDrawsEveryBufferByte :
    HostMoves (hosted [.reset none]) (.reset none) [] ∧ implemented Params.default 0x11F = true ∧
      implemented Params.default 0x322 = true ∧ implemented Params.default 0x197FF = true :=
  ⟨hosted_moves _ _, by decide, by decide, by decide⟩

theorem witness_StepKeepsInvariant :
    Inv scenarioB ∧ step scenarioB = .next scenarioB := ⟨scenarioB_inv, rfl⟩

theorem witness_DecodingReadsOpcodeAlone : (0xABCDEF15 : Word) &&& 0xF = 0x00000005 &&& 0xF := by decide

theorem witness_CmdWriteRunsDecodedCommand :
    HostMoves (hosted [.access (.memWrite 8 4 5)]) (.access (.memWrite 8 4 5)) [] ∧
      (hosted [.access (.memWrite 8 4 5)]).busy = false := ⟨hosted_moves _ _, rfl⟩

theorem witness_EngineStepRunsLatchedCommand :
    (running .derive scenarioB).busy = true ∧
      (running .derive scenarioB).latched = some (latchOperands 3 (running .derive scenarioB)) ∧
      (running .derive scenarioB).host = [] := ⟨rfl, rfl, rfl⟩

theorem witness_AcceptanceLatchesOperands : Instr.reservedF ≠ .nop ∧ scenarioB.busy = false := ⟨by decide, rfl⟩

theorem witness_NopWriteHasNoEffect :
    HostMoves (hosted [.access (.memWrite 8 4 0xFFFFFFF0)]) (.access (.memWrite 8 4 0xFFFFFFF0)) [] ∧
      HostMoves (busyWith .encode (.access (.memWrite 8 4 0xFFFFFFF0))) (.access (.memWrite 8 4 0xFFFFFFF0)) [] ∧
      (0xFFFFFFF0 : Word).extractLsb' 0 4 = 0 := ⟨hosted_moves _ _, busyWith_moves _ _, by decide⟩

theorem witness_ReservedCommandsAreIllegal :
    scenarioB.busy = false ∧ Latches (running .reserved7 scenarioB) .reserved7 (latchOperands 7 scenarioB) :=
  ⟨rfl, rfl, rfl, rfl⟩

/-- Every operand valid; the tests above show a failing check of each kind. -/
theorem witness_ValidationReportsFirstFailure :
    Instr.encrypt ≠ .nop ∧ Latches (running .encrypt scenarioB) .encrypt (latchOperands 5 scenarioB) :=
  ⟨by decide, rfl, rfl, rfl⟩

/-- A record at the largest lengths its fields hold. -/
def fullRecord : TraceRecord :=
  { kind := .round, roundNo := 255, keyRound := 255, subkey := List.replicate 255 0x61, halfBits := 1024,
    f := List.replicate 1024 true, preL := [], preR := [], postL := [], postR := [],
    block := List.replicate 2048 true }

theorem witness_CompletionWritesOutputs :
    (running .encrypt scenarioB).params.legal = true ∧
      (List.replicate 280 true).length ≤ 8 * outMax (running .encrypt scenarioB).params ∧
      (List.replicate 19 fullRecord).length ≤ traceRecords (running .encrypt scenarioB).params ∧
      ∀ rec ∈ List.replicate 19 fullRecord, RecordFits rec :=
  ⟨by decide, by rw [List.length_replicate]; decide, by rw [List.length_replicate]; decide, fun rec h => by
    rw [List.eq_of_mem_replicate h]
    simp only [RecordFits, fullRecord, List.length_replicate, List.length_nil]
    decide⟩

theorem witness_EncodeWritesInputText :
    InProgress .encode (running .encode scenarioB) ∧ textLenOk (running .encode scenarioB) :=
  ⟨running_inProgress (by decide) scenarioB_inv, by unfold textLenOk; decide⟩

/-- TEXT_IN and BIT_LEN at their largest. -/
def fullBits : State := loaded Params.default (List.replicate 32 0x5A) [0x6B] 0 0 1 256

theorem fullBits_inv : Inv fullBits := loaded_inv (by decide) 0 0 1 256 (by decide)

theorem witness_DecodeWritesBytesOfBits :
    InProgress .decode (running .decode fullBits) ∧ bitLenOk (running .decode fullBits) ∧
      (running .decode fullBits).bitLen.toNat % 8 = 0 :=
  ⟨running_inProgress (by decide) fullBits_inv, by unfold bitLenOk; decide, by decide⟩

/-- The largest parameters, "k" and `r` rounds. -/
def manyRounds (r : BitVec 8) : State :=
  loaded { nMax := 255, kMax := 252, rMax := 255, base := 0x100000 } [0x41] [0x6B] r 1 1 8

theorem manyRounds_inv (r : BitVec 8) : Inv (manyRounds r) :=
  loaded_inv (by decide) r 1 1 8 (show (manyRounds 0).mem.wf (manyRounds 0).params = true by decide)

/-- One, two and three digits, at both ends of each range. -/
theorem witness_DeriveWritesRoundKey :
    ∀ r ∈ ([1, 9, 10, 99, 100, 255] : List (BitVec 8)),
      InProgress .derive (running .derive (manyRounds r)) ∧ keyLenOk (running .derive (manyRounds r)) ∧
        roundsOk (running .derive (manyRounds r)) := by
  intro r hr
  refine ⟨running_inProgress (by decide) (manyRounds_inv r),
    show 1 ≤ (1 : BitVec 8).toNat ∧ (1 : BitVec 8).toNat ≤ 252 by decide, ?_⟩
  revert r
  unfold roundsOk
  decide

theorem witness_MixWritesMixedBits :
    InProgress .mix (running .mix fullBits) ∧ keyLenOk (running .mix fullBits) ∧ bitLenOk (running .mix fullBits) :=
  ⟨running_inProgress (by decide) fullBits_inv, by unfold keyLenOk; decide, by unfold bitLenOk; decide⟩

theorem witness_EncryptWritesCiphertext :
    InProgress .encrypt (running .encrypt scenarioB) ∧ textLenOk (running .encrypt scenarioB) ∧
      keyLenOk (running .encrypt scenarioB) ∧ roundsOk (running .encrypt scenarioB) :=
  ⟨running_inProgress (by decide) scenarioB_inv, by unfold textLenOk; decide, by unfold keyLenOk; decide,
    by unfold roundsOk; decide⟩

theorem witness_DecryptWritesPlaintext :
    InProgress .decrypt (running .decrypt scenarioB2) ∧ textLenOk (running .decrypt scenarioB2) ∧
      keyLenOk (running .decrypt scenarioB2) ∧ roundsOk (running .decrypt scenarioB2) :=
  ⟨running_inProgress (by decide) scenarioB2_inv, by unfold textLenOk; decide, by unfold keyLenOk; decide,
    by unfold roundsOk; decide⟩

/-- 255 rounds: every round from the first to the last. -/
theorem witness_EncryptTraceHoldsEveryRound :
    InProgress .encrypt (running .encrypt (manyRounds 255)) ∧ textLenOk (running .encrypt (manyRounds 255)) ∧
      keyLenOk (running .encrypt (manyRounds 255)) ∧ roundsOk (running .encrypt (manyRounds 255)) :=
  ⟨running_inProgress (by decide) (manyRounds_inv 255), by unfold textLenOk; decide, by unfold keyLenOk; decide,
    by unfold roundsOk; decide⟩

theorem witness_DecryptTraceHoldsEveryStep :
    InProgress .decrypt (running .decrypt (manyRounds 255)) ∧ textLenOk (running .decrypt (manyRounds 255)) ∧
      keyLenOk (running .decrypt (manyRounds 255)) ∧ roundsOk (running .decrypt (manyRounds 255)) :=
  ⟨running_inProgress (by decide) (manyRounds_inv 255), by unfold textLenOk; decide, by unfold keyLenOk; decide,
    by unfold roundsOk; decide⟩

theorem witness_DecryptUndoesEncrypt : 1 ≤ ([0x41] : Text).length ∧ 1 ≤ ([0x6B] : Text).length ∧ 1 ≤ 1 := by decide

/-- Scenario B's two commands. -/
theorem witness_DecryptCommandRestoresPlaintext :
    InProgress .encrypt (running .encrypt scenarioB) ∧
      exec .encrypt (running .encrypt scenarioB) = .next (completed .encrypt scenarioB) ∧
      InProgress .decrypt (running .decrypt scenarioB2) ∧
      (running .decrypt scenarioB2).params = (running .encrypt scenarioB).params ∧
      (running .decrypt scenarioB2).textLen = (completed .encrypt scenarioB).outLen ∧
      (running .decrypt scenarioB2).inputText = (completed .encrypt scenarioB).outText ∧
      (running .decrypt scenarioB2).keyLen = (running .encrypt scenarioB).keyLen ∧
      (running .decrypt scenarioB2).keyText = (running .encrypt scenarioB).keyText ∧
      (running .decrypt scenarioB2).rounds = (running .encrypt scenarioB).rounds :=
  ⟨running_inProgress (by decide) scenarioB_inv, rfl, running_inProgress (by decide) scenarioB2_inv, rfl,
    by decide, by decide, by decide, by decide, by decide⟩

/-- Numerals of different and of the same length. -/
theorem witness_RoundKeysAreDistinct :
    1 ≤ ([0x6B] : Text).length ∧ (9 : Nat) ≠ 10 ∧ (decimal 9).length ≠ (decimal 10).length ∧
      (decimal 10).length = (decimal 99).length := by decide

theorem witness_DeriveFollowsFormula :
    1 ≤ ([0x6B] : Text).length ∧ ∀ r ∈ [1, 9, 10, 99, 100, 255], 1 ≤ r ∧ r ≤ 255 := by decide

theorem witness_RotationIsPeriodic : ([0x6B] : Text).length = 1 ∧ 1 ≤ ([0x6B, 0x65] : Text).length := by decide

theorem witness_MixIsAKeyStreamXor :
    1 ≤ ([0x6B] : Text).length ∧ ([true, false] : BitString).length = ([false, false] : BitString).length := by decide

theorem witness_CodecRoundTrips : (List.replicate 16 true).length % 8 = 0 := by decide

theorem witness_HalvesStayEqual : ([0x41, 0x42, 0x43] : Text).length % 2 = 1 := by decide

theorem witness_ReadsChangeNothing :
    HostMoves (hosted [.access (.memRead 0x300 4)]) (.access (.memRead 0x300 4)) [] ∧
      HostMoves (busyWith .mix (.access (.memRead 0x301 2))) (.access (.memRead 0x301 2)) [] :=
  ⟨hosted_moves _ _, busyWith_moves _ _⟩

/-- A wrong size at an aligned offset, and a misaligned offset, at the window's end. -/
theorem witness_OtherAccessesEndWithError :
    HostMoves (hosted [.access (.memRead 0xFFFFC 2)]) (.access (.memRead 0xFFFFC 2)) [] ∧
      (Transaction.memRead 0xFFFFC 2).size ≠ 4 ∧
      HostMoves (busyWith .mix (.access (.memWrite 0xFFFFE 4 1))) (.access (.memWrite 0xFFFFE 4 1)) [] ∧
      0xFFFFE % 4 ≠ 0 := ⟨hosted_moves _ _, by decide, busyWith_moves _ _, by decide⟩

theorem witness_BusyAccesses :
    ∀ e ∈ [HostEvent.access (.memWrite 0xFFFFC 4 1), .access (.memRead 0x0 4), .access (.memRead 0x4 4),
        .access (.memRead 0xC 4), .access (.memRead 0x8 4), .access (.memRead 0xFFFFC 4)],
      (busyWith .mix e).busy = true ∧ HostMoves (busyWith .mix e) e [] :=
  fun e _ => ⟨rfl, busyWith_moves .mix e⟩

theorem witness_WritableRegistersKeepDefinedBits :
    ∀ off ∈ [0x10, 0x14, 0x18, 0x1C],
      (hosted [.access (.memWrite (0 + off) 4 0xFFFFFFFF)]).busy = false ∧
        HostMoves (hosted [.access (.memWrite (0 + off) 4 0xFFFFFFFF)]) (.access (.memWrite (0 + off) 4 0xFFFFFFFF))
          [] := fun _ _ => ⟨rfl, hosted_moves _ _⟩

/-- Both buffers, their implemented ends and the windows' ends. -/
theorem witness_BufferWritesStoreImplementedBytes :
    Inv scenarioB ∧ ∀ off ∈ [0x100, 0x11C, 0x120, 0x1FC, 0x200, 0x21C, 0x220, 0x2FC],
      off % 4 = 0 ∧ 0x100 ≤ off ∧ off < 0x300 ∧
        HostMoves (hosted [.access (.memWrite (0 + off) 4 1)]) (.access (.memWrite (0 + off) 4 1)) [] :=
  ⟨scenarioB_inv, fun off h => by
    simp only [List.mem_cons, List.not_mem_nil, or_false] at h
    exact ⟨by omega, by omega, by omega, hosted_moves _ _⟩⟩

/-- The read-only registers, and both ends of the OUT window and of TRACE. -/
theorem witness_ReadOnlyWritesAreIgnored :
    Params.default.legal = true ∧ traceRecords Params.default = 19 ∧
      ∀ off ∈ [0x00, 0x04, 0x0C, 0x20, 0x24, 0x28, 0x300, 0x3FC, 0x10000, 0x197FC],
        off % 4 = 0 ∧ (off ∈ [0x00, 0x04, 0x0C, 0x20, 0x24, 0x28] ∨ (0x300 ≤ off ∧ off < 0x400) ∨
          (0x10000 ≤ off ∧ off < 0x10000 + 0x800 * 19)) ∧
        HostMoves (hosted [.access (.memWrite (0 + off) 4 1)]) (.access (.memWrite (0 + off) 4 1)) [] := by
  refine ⟨by decide, by decide, fun off h => ⟨?_, ?_, hosted_moves _ _⟩⟩ <;> revert off <;> decide

/-- Both ends of each reserved range. -/
theorem witness_ReservedOffsetsReadZero :
    Params.default.legal = true ∧ traceRecords Params.default = 19 ∧
      ∀ off ∈ [0x2C, 0xFC, 0x400, 0xFFFC, 0x19800, 0xFFFFC],
        off % 4 = 0 ∧ ((0x2C ≤ off ∧ off < 0x100) ∨ (0x400 ≤ off ∧ off < 0x10000) ∨
          (0x10000 + 0x800 * 19 ≤ off ∧ off < 0x100000)) ∧
        HostMoves (hosted [.access (.memRead (0 + off) 4)]) (.access (.memRead (0 + off) 4)) [] := by
  refine ⟨by decide, by decide, fun off h => ⟨?_, ?_, hosted_moves _ _⟩⟩ <;> revert off <;> decide

theorem witness_BufferBytesPackLittleEndian :
    Params.default.legal = true ∧ 31 < Params.default.nMax ∧ 31 < Params.default.kMax ∧
      34 < outMax Params.default ∧ 18 < traceRecords Params.default ∧ (255 : Nat) < 256 := by decide

theorem witness_IdAndParamsReadAtAllTimes :
    Params.default.legal = true ∧ HostMoves (hosted [.access (.memRead 0x0 4)]) (.access (.memRead 0x0 4)) [] ∧
      HostMoves (busyWith .mix (.access (.memRead 0x4 4))) (.access (.memRead 0x4 4)) [] :=
  ⟨by decide, hosted_moves _ _, busyWith_moves _ _⟩

/-- One address below the window and the first one above it. -/
theorem witness_OutsideTheWindowNothingHappens :
    ∀ a ∈ [0xFFFFC, 0x200000],
      HostMoves { manyRounds 1 with host := [.access (.memWrite a 4 1)] } (.access (.memWrite a 4 1)) [] ∧
        (a < (manyRounds 1).params.base ∨ (manyRounds 1).params.base + 0x100000 ≤ a) := by
  refine fun a h => ⟨⟨rfl, rfl⟩, ?_⟩
  revert a
  decide

theorem witness_IdleBlockWaits : scenarioB.busy = false ∧ scenarioB.host = [] := ⟨rfl, rfl⟩

theorem witness_PollRepeatsUntilItsValue :
    HostMoves (busyWith .mix (.poll 0xC 1 0)) (.poll 0xC 1 0) [] ∧
      HostMoves (hosted [.poll 0x300 0xFF 0]) (.poll 0x300 0xFF 0) [] := ⟨busyWith_moves _ _, hosted_moves _ _⟩

/-- Two host events before the completion of Scenario B's ENCRYPT, a poll among them, and a reset after it. -/
def waiting : State :=
  { running .encrypt scenarioB with
    wait := 2, host := [.poll 0xC 1 0, .access (.memRead 0x300 4), .reset none] }

theorem witness_AcceptedCommandCompletes :
    Inv waiting ∧ waiting.latched = some (latchOperands 5 scenarioB) ∧
      ∀ x, HostEvent.reset x ∉ waiting.host.take waiting.wait :=
  ⟨Inv.channel ⟨_, _, _, _, rfl⟩ (running_inProgress (i := .encrypt) (by decide) scenarioB_inv).inv, rfl, fun x => by
    simp [waiting]⟩

/-- The same text under another key, another round count and other bits. -/
def scenarioB3 : State := loaded Params.default [0x41, 0x42, 0x43] [0x78] 9 2 1 5

/-- ENCODE reads none of what differs between the two states. -/
theorem witness_OutcomeDependsOnlyOnReadOperands :
    InProgress .encode (running .encode scenarioB) ∧ InProgress .encode (running .encode scenarioB3) ∧
      running .encode scenarioB ≠ running .encode scenarioB3 ∧
      (running .encode scenarioB).textLen = (running .encode scenarioB3).textLen ∧
      ∀ k, k < 2 → (running .encode scenarioB).mem.read (textInBase + k) =
        (running .encode scenarioB3).mem.read (textInBase + k) :=
  ⟨running_inProgress (by decide) scenarioB_inv,
    running_inProgress (by decide) (loaded_inv (by decide) 9 2 1 5 (by decide)),
    fun h => absurd (congrArg State.rounds h) (by decide), by decide, by decide⟩

theorem witness_LoadtextLoadsTheText :
    Inv { scenarioB with host := expand Params.default (.loadtext [0x58, 0x59, 0x5A]) } ∧
      scenarioB.busy = false ∧ 1 ≤ ([0x58, 0x59, 0x5A] : Text).length ∧
      ([0x58, 0x59, 0x5A] : Text).length ≤ scenarioB.params.nMax :=
  ⟨Inv.channel ⟨_, scenarioB.responses, scenarioB.wait, scenarioB.draws, rfl⟩ scenarioB_inv, rfl, by decide, by decide⟩

theorem witness_CommandsKeepTheirInputs :
    (running .encrypt scenarioB).params.legal = true ∧
      exec .encrypt (running .encrypt scenarioB) = .next (completed .encrypt scenarioB) := ⟨by decide, rfl⟩

theorem witness_StepKeepsParameters : step scenarioB = .next scenarioB := rfl

/-- The completion of Scenario B writes OUT[0]. -/
theorem witness_OnlySuccessOrResetWritesOutputs :
    Inv (running .encrypt scenarioB) ∧ step (running .encrypt scenarioB) = .next (completed .encrypt scenarioB) ∧
      inOutputs (running .encrypt scenarioB).params 0x300 = true ∧
      bufferByte (completed .encrypt scenarioB) 0x300 ≠ bufferByte (running .encrypt scenarioB) 0x300 :=
  ⟨(running_inProgress (i := .encrypt) (by decide) scenarioB_inv).inv, rfl, by decide, by decide⟩

/-- A register of each access kind, an end of each buffer, and the window's end. -/
theorem witness_IdleReadsAnswerTheCurrentWord :
    ∀ off ∈ [0x0C, 0x10, 0x1C, 0x20, 0x28, 0x2C, 0x100, 0x1FC, 0x200, 0x2FC, 0x300, 0x3FC, 0x10000, 0x197FC, 0xFFFFC],
      (hosted [.access (.memRead (0 + off) 4)]).busy = false ∧ off < 0x100000 ∧ off % 4 = 0 ∧
        HostMoves (hosted [.access (.memRead (0 + off) 4)]) (.access (.memRead (0 + off) 4)) [] := by
  refine fun off h => ⟨rfl, ?_, ?_, hosted_moves _ _⟩ <;> revert off <;> decide

/-- Idle, and busy, at the window's end. -/
theorem witness_StatedReadIsMetByItsDataAlone :
    (HostStatement.rd 0xFFFFC (some 0)).wellFormed = true ∧ (HostStatement.rd 0xC (some 0x501)).wellFormed = true ∧
      HostMoves (hosted [.access (.memRead 0xFFFFC 4)]) (.access (.memRead 0xFFFFC 4)) [] ∧
      HostMoves (busyWith .encrypt (.access (.memRead 0xC 4))) (.access (.memRead 0xC 4)) [] :=
  ⟨by decide, by decide, hosted_moves _ _, busyWith_moves _ _⟩

/-- One line that is met, and one that is not. -/
theorem witness_ReadProgramIsMetByTheCurrentWords :
    scenarioB.busy = false ∧
      (∀ st ∈ [HostStatement.rd 0x10 (some 2), .rd 0x100 (some 0)], st.wellFormed = true) ∧
      (hosted (expandProgram Params.default [.rd 0x10 (some 2), .rd 0x100 (some 0)])).host =
        [.access (.memRead 0x10 4), .access (.memRead 0x100 4)] ∧
      readWord scenarioB 0x10 = 2 ∧ readWord scenarioB 0x100 ≠ 0 := by
  refine ⟨rfl, ?_, rfl, by decide, by decide⟩
  decide

end Sys2Proof.Machine.Tests
end

section
/-! PROOFS of the statements on scope and parameters (00_scope.md). -/

namespace Sys2Proof.Machine

/-- The state right after reset is what a reset (70_reset_and_hazards.md R250) makes of the same parameters, host
channel and draw index 0, so what holds after every reset holds of it. -/
theorem reset_eq_resetBlock : State.reset = resetBlock { State.reset with draws := 0 } := rfl

/-- The default capacities and BASE 0 are within 00_scope.md R4. -/
theorem params_default_legal : Params.default.legal = true := by decide

/-- Settles O3: every reset of a block with legal parameters gives the invariant (`inv_resetBlock`), and
`State.reset` is such a reset, with the default parameters. -/
theorem resetStateMeetsInvariant : Obligations.ResetStateMeetsInvariant := by
  unfold Obligations.ResetStateMeetsInvariant
  rw [reset_eq_resetBlock]
  exact inv_resetBlock params_default_legal

end Sys2Proof.Machine
end

section
/-! PROOFS of the statements on the state (10_state.md). -/

namespace Sys2Proof.Machine

/-! The invariant is kept by a completion, and so by every step. -/

/-- Only a command that reads ROUNDS leaves a trace (44_engine.md R188). -/
theorem usesRounds_of_records {i : Instr} {l : Latched} {r : Result} (h : commandResult i l = .ok r)
    (hr : r.records ≠ []) : usesRounds i = true := by
  cases i
  case derive => rfl
  case encrypt => rfl
  case decrypt => rfl
  case encode => cases h; exact absurd rfl hr
  case mix => cases h; exact absurd rfl hr
  case decode =>
    simp only [commandResult, decodeResult] at h
    split at h
    · cases h; exact absurd rfl hr
    · cases h
  all_goals cases h

/-- The trace of validated operands is empty or holds at least conversion, split, one round and final. -/
theorem commandResult_records {p : Params} (hp : p.legal = true) {i : Instr} {l : Latched} {r : Result}
    (hv : validate p i l = none) (hk : l.key.length = p.kMax) (h : commandResult i l = .ok r) :
    r.records = [] ∨ 4 ≤ r.records.length := by
  by_cases hr : r.records = []
  · exact .inl hr
  · have hlen := (commandResult_ok_bounds hp hv hk h).2.1.resolve_left hr
    obtain ⟨-, -, hrounds, -, -⟩ := validate_none_bounds hv
    have := hrounds (usesRounds_of_records h hr)
    exact .inr (by omega)

/-- A completion of the command in progress keeps the invariant, whichever way it ends. -/
theorem inv_complete {i : Instr} {s : State} {l : Latched} (hi : Inv s) (hb : s.busy = true)
    (hl : s.latched = some l) : Inv (complete i l (commandResult i l) s) := by
  have hk : l.key.length = s.params.kMax := by
    rw [hi.latched_current l hl]
    exact Memory.length_readRange _ _ _
  rcases complete_cases i l (commandResult i l) s with ⟨e, ht, hv | ⟨-, he⟩⟩ | ⟨r, ht, hv, hr⟩ <;> rw [ht]
  · exact inv_raiseError e (fun he => validate_ne_encoding (he ▸ hv)) hi hb
  · exact inv_raiseError e (commandResult_error he) hi hb
  · obtain ⟨hbits, -, hfit⟩ := commandResult_ok_bounds hi.params_legal hv hk hr
    exact inv_completeOk hi r hb hbits (commandResult_records hi.params_legal hv hk hr) hfit

/-- Settles O4: each of the five things a step can do (`step_cases`) keeps the invariant. -/
theorem stepKeepsInvariant : Obligations.StepKeepsInvariant := by
  unfold Obligations.StepKeepsInvariant
  intro s t hi h
  obtain ⟨u, hu, hc⟩ := step_cases s
  cases h.symm.trans hu
  rcases hc with hc | ⟨-, i, s0, hn, h0, hc⟩ | ⟨hb, off, v, s0, h0, hc⟩ | ⟨hb, i, l, -, hl, -, rfl⟩ |
    ⟨x, rest, s1, -, hp, hc⟩
  · exact hi.channel hc
  · exact (inv_accept hn (hi.channel h0)).channel hc
  · exact (inv_storeWord (hi.channel h0) (h0.busy.trans hb) off v).channel hc
  · exact inv_complete hi hb hl
  · exact (inv_resetBlock (hp ▸ hi.params_legal)).channel hc

/-! What a command and a step leave unchanged. -/

theorem KeepsInputs.refl (s : State) : KeepsInputs s s := ⟨rfl, rfl, rfl, rfl, rfl, rfl, rfl, fun _ _ => rfl⟩

theorem accept_keepsInputs (op : BitVec 4) (s : State) : KeepsInputs s (accept op s) :=
  ⟨rfl, rfl, rfl, rfl, rfl, rfl, rfl, fun _ _ => rfl⟩

theorem raiseError_keepsInputs (e : ErrorCode) (s : State) : KeepsInputs s (raiseError e s) :=
  ⟨rfl, rfl, rfl, rfl, rfl, rfl, rfl, fun _ _ => rfl⟩

/-- Settles O50: a command does nothing, is accepted, fails or succeeds (`exec_cases`, `complete_cases`), and of
these only a success touches the buffers, in OUT and TRACE alone. -/
theorem commandsKeepTheirInputs : Obligations.CommandsKeepTheirInputs := by
  unfold Obligations.CommandsKeepTheirInputs
  intro i s t hp h
  rcases exec_cases i s with h' | ⟨-, hb, h'⟩ | ⟨-, hb, l, -, -, h'⟩ <;> cases h.symm.trans h'
  · exact ⟨KeepsInputs.refl s, fun hm => absurd rfl hm, fun _ => rfl, fun _ => ⟨rfl, rfl, rfl⟩⟩
  · exact ⟨accept_keepsInputs _ s, fun hm => absurd rfl hm, fun hb' => by simp [hb] at hb',
      fun _ => ⟨rfl, rfl, rfl⟩⟩
  · rcases complete_cases i l (commandResult i l) s with ⟨e, ht, -⟩ | ⟨r, ht, -⟩ <;> rw [ht]
    · exact ⟨raiseError_keepsInputs e s, fun hm => absurd rfl hm, fun _ => rfl, fun hb' => by simp [hb] at hb'⟩
    · exact ⟨completeOk_keepsInputs hp r, fun _ => ⟨hb, rfl⟩, fun _ => rfl, fun hb' => by simp [hb] at hb'⟩

theorem complete_params (i : Instr) (l : Latched) (f : Except ErrorCode Result) (s : State) :
    (complete i l f s).params = s.params := by
  rcases complete_cases i l f s with ⟨e, ht, -⟩ | ⟨r, ht, -⟩ <;> rw [ht] <;> rfl

/-- Settles O51: none of the five things a step can do (`step_cases`) changes the parameters. -/
theorem stepKeepsParameters : Obligations.StepKeepsParameters := by
  unfold Obligations.StepKeepsParameters
  intro s t h
  obtain ⟨u, hu, hc⟩ := step_cases s
  cases h.symm.trans hu
  rcases hc with hc | ⟨-, i, s0, -, h0, hc⟩ | ⟨-, off, v, s0, h0, hc⟩ | ⟨-, i, l, -, -, -, rfl⟩ |
    ⟨x, rest, s1, -, hp, hc⟩
  · exact hc.params
  · exact hc.params.trans h0.params
  · exact hc.params.trans ((storeWord_params off v s0).1.trans h0.params)
  · exact complete_params _ _ _ _
  · exact hc.params.trans hp

theorem ChannelOnly.bufferByte {s u : State} (h : ChannelOnly s u) (a : Nat) :
    bufferByte u a = bufferByte s a := by
  obtain ⟨_, _, _, _, rfl⟩ := h; rfl

/-- No host write changes a byte of OUT or TRACE (20_memory.md R59, R60). -/
theorem storeWord_bufferByte_output {s : State} (hp : s.params.legal = true) (off : Nat) (v : Word) {a : Nat}
    (ha : inOutputs s.params a = true) : bufferByte (storeWord off v s) a = bufferByte s a := by
  have hm : (storeWord off v s).mem.read a = s.mem.read a := by
    unfold storeWord
    repeat' split
    · rfl
    · rfl
    · rfl
    · rfl
    · exact storeBytes_outputs hp off v a ha
  simp only [bufferByte, (storeWord_params off v s).1, hm]

/-- Settles O52: of the five things a step can do (`step_cases`), the host's channel, an acceptance, a store and a
failed completion leave OUT and TRACE, so a step that changed them was a success or a reset. -/
theorem onlySuccessOrResetWritesOutputs : Obligations.OnlySuccessOrResetWritesOutputs := by
  unfold Obligations.OnlySuccessOrResetWritesOutputs
  intro s t a hi h ha hne
  obtain ⟨u, hu, hc⟩ := step_cases s
  cases h.symm.trans hu
  rcases hc with hc | ⟨-, i, s0, -, h0, hc⟩ | ⟨-, off, v, s0, h0, hc⟩ | ⟨hb, i, l, -, -, -, rfl⟩ |
    ⟨x, rest, s1, hx, -, -⟩
  · exact absurd (hc.bufferByte a) hne
  · exact absurd ((hc.bufferByte a).trans (h0.bufferByte a)) hne
  · have hs : bufferByte (storeWord off v s0) a = bufferByte s0 a :=
      storeWord_bufferByte_output (h0.params ▸ hi.params_legal) off v (h0.params ▸ ha)
    exact absurd ((hc.bufferByte a).trans (hs.trans (h0.bufferByte a))) hne
  · rcases complete_cases i l (commandResult i l) s with ⟨e, ht, -⟩ | ⟨r, ht, -⟩ <;> rw [ht] at hne ⊢
    · exact absurd rfl hne
    · exact .inl ⟨hb, rfl, rfl⟩
  · exact .inr ⟨x, rest, hx⟩

/-! The words of the registers. -/

theorem readWord_offId (s : State) : readWord s offId = 0x46454953 := rfl

theorem readWord_offParams (s : State) : readWord s offParams = paramsWord s.params := rfl

/-- PARAMS is VERSION, R_MAX, K_MAX and N_MAX as the four bytes of a bus word (10_state.md R24). -/
theorem paramsWord_eq_wordOfBytes (p : Params) : paramsWord p =
    wordOfBytes (BitVec.ofNat 8 p.nMax) (BitVec.ofNat 8 p.kMax) (BitVec.ofNat 8 p.rMax) 0x01#8 := rfl

theorem paramsWord_fields (p : Params) :
    (paramsWord p).extractLsb' 0 8 = BitVec.ofNat 8 p.nMax ∧
      (paramsWord p).extractLsb' 8 8 = BitVec.ofNat 8 p.kMax ∧
      (paramsWord p).extractLsb' 16 8 = BitVec.ofNat 8 p.rMax ∧ (paramsWord p).extractLsb' 24 8 = 0x01 :=
  paramsWord_eq_wordOfBytes p ▸ byte_wordOfBytes _ _ _ _

/-- Settles O1: a reset, with or without a transaction in flight, ends in a reset block (`runEvent_reset`), whose
register fields are those of R46. -/
theorem resetSetsEveryRegister : Obligations.ResetSetsEveryRegister := by
  unfold Obligations.ResetSetsEveryRegister
  intro s inFlight rest h
  obtain ⟨s1, rs, ht, hp, hh, -⟩ := runEvent_reset (s := { s with host := rest, wait := s.wait - 1 }) inFlight
  have hw : readWord { resetBlock s1 with responses := rs } offParams = paramsWord s.params :=
    congrArg paramsWord hp
  refine ⟨_, (step_host h).trans ht, rfl, rfl, rfl, rfl, rfl, rfl, rfl, rfl, rfl, rfl, rfl, rfl, rfl,
    readWord_offId _, ?_⟩
  obtain ⟨hn, hk, hr, hv⟩ := paramsWord_fields s.params
  rw [hw]
  exact ⟨hn, hk, hr, hv, hh⟩

/-- Settles O2: the reset block draws every buffer byte at the draw index it finds (`Memory.read_atReset`), which no
event before it has taken back (`runEvent_reset`), and moves the index on. -/
theorem resetDrawsEveryBufferByte : Obligations.ResetDrawsEveryBufferByte := by
  unfold Obligations.ResetDrawsEveryBufferByte
  intro s inFlight rest h
  obtain ⟨s1, rs, ht, hp, -, hd⟩ := runEvent_reset (s := { s with host := rest, wait := s.wait - 1 }) inFlight
  refine ⟨_, s1.draws, (step_host h).trans ht, hd, Nat.lt_succ_self _, fun a ha => ?_⟩
  have ha1 : implemented s1.params a = true := by rw [hp]; exact ha
  exact (if_pos ha1).trans (Memory.read_atReset s1.draws ha1)

/-- Where each bit of the STATUS word lies (10_state.md R26). -/
theorem getLsbD_statusWord (s : State) (i : Nat) : (statusWord s).getLsbD i =
    if i < 1 then s.busy else if i < 2 then s.done else if i < 3 then s.err else if i < 4 then false
      else if i < 8 then s.errcode.getLsbD (i - 4) else if i < 12 then s.lastOp.getLsbD (i - 8) else false := by
  have h : (statusWord s).getLsbD i = (0#20 ++ s.lastOp ++ s.errcode ++ 0#1 ++ BitVec.ofBool s.err ++
    BitVec.ofBool s.done ++ BitVec.ofBool s.busy : BitVec (20 + 4 + 4 + 1 + 1 + 1 + 1)).getLsbD i := rfl
  rw [h]
  simp only [BitVec.getLsbD_append, BitVec.getLsbD_ofBool, BitVec.getLsbD_zero, Nat.sub_sub]
  grind

/-- Settles O42: each field of STATUS, bit by bit (`getLsbD_statusWord`). -/
theorem statusWordFields : Obligations.StatusWordFields := by
  unfold Obligations.StatusWordFields
  intro s w
  have hw : ∀ i, w.getLsbD i = _ := getLsbD_statusWord s
  refine ⟨hw 0, hw 1, hw 2, hw 3, ?_, ?_, ?_⟩ <;> apply BitVec.eq_of_getLsbD_eq <;> intro i hi <;>
    rw [BitVec.getLsbD_extractLsb', hw]
  · interval_cases i <;> rfl
  · interval_cases i <;> rfl
  · interval_cases i <;> rfl

/-- A legal read of a register that BUSY does not close answers its word and changes nothing, idle or busy
(20_memory.md R61). -/
theorem step_read_readable {s : State} {off : Nat} {rest : List HostEvent} (hw : off < windowBytes)
    (ho : off % 4 = 0) (hr : readableWhileBusy off = true)
    (h : HostMoves s (.access (.memRead (s.params.base + off) 4)) rest) :
    step s = .next (answered (.read .okay (readWord s off)) rest (s.wait - 1) s) := by
  rw [step_read hw ho h]
  simp only [readData, drawsAfterRead, hr, Bool.not_true, Bool.and_false, Bool.false_eq_true, if_false]
  rfl

/-- Settles O43: ID and PARAMS answer their words at all times (`step_read_readable`), and legal capacities fit the
bytes of PARAMS. -/
theorem idAndParamsReadAtAllTimes : Obligations.IdAndParamsReadAtAllTimes := by
  unfold Obligations.IdAndParamsReadAtAllTimes
  intro s rest hp
  obtain ⟨-, hn, -, hk, -, hr, -⟩ := params_legal_iff.1 hp
  obtain ⟨hn', hk', hr', hv⟩ := paramsWord_fields s.params
  refine ⟨fun h => ⟨_, step_read_readable (by decide) rfl rfl h⟩,
    fun h => ⟨paramsWord s.params, _, step_read_readable (by decide) rfl rfl h, ?_, ?_, ?_, hv⟩⟩
  · rw [hn', BitVec.toNat_ofNat]; omega
  · rw [hk', BitVec.toNat_ofNat]; omega
  · rw [hr', BitVec.toNat_ofNat]; omega

/-- A register of `n` bits in a bus word: its field, and 0 in the `m` reserved bits above it (20_memory.md R54). -/
theorem setWidth_fields {n m : Nat} (x : BitVec n) (h : n + m = 32) :
    (x.setWidth 32).extractLsb' 0 n = x ∧ (x.setWidth 32).extractLsb' n m = 0 := by
  constructor <;> apply BitVec.eq_of_getLsbD_eq <;> intro i hi <;>
    rw [BitVec.getLsbD_extractLsb', BitVec.getLsbD_setWidth]
  · have h32 : i < 32 := by omega
    simp [hi, h32]
  · simp

/-- Settles O54: each of the seven words is its register, set to the width of the bus (`setWidth_fields`). -/
theorem lengthRegisterWordsHoldTheirFields : Obligations.LengthRegisterWordsHoldTheirFields := by
  unfold Obligations.LengthRegisterWordsHoldTheirFields
  intro s
  exact ⟨setWidth_fields s.rounds rfl, setWidth_fields s.textLen rfl, setWidth_fields s.keyLen rfl,
    setWidth_fields s.bitLen rfl, setWidth_fields s.outLen rfl, setWidth_fields s.outBits rfl,
    setWidth_fields s.traceCount rfl⟩

end Sys2Proof.Machine
end

section
/-! PROOFS of the statements on the memory map and the bus (20_memory.md). -/

namespace Sys2Proof.Machine

/-! Buffer bytes in bus words, and what a word store does to them. -/

/-- Byte `k` of a buffer that starts at `base` is byte `k mod 4` of its word `k div 4` (20_memory.md R53). -/
theorem byte_readWord_implemented {s : State} {base k : Nat} (hbase : 0x2C ≤ base)
    (hi : implemented s.params (base + k) = true) :
    (readWord s (base + 4 * (k / 4))).extractLsb' (8 * (k % 4)) 8 = s.mem.read (base + k) := by
  have ha : base + 4 * (k / 4) + k % 4 = base + k := by omega
  rw [byte_readWord_buffer (by omega) s (by omega), ha, bufferByte, if_pos hi]

/-- No byte of the aligned word at an offset outside the TEXT_IN and KEY windows is one a host can store to. -/
theorem inInputs_outside_windows {p : Params} (hp : p.legal = true) {off : Nat} (ho : off % 4 = 0)
    (hr : off < 0x100 ∨ 0x300 ≤ off) {k : Nat} (hk : k < 4) : inInputs p (off + k) = false := by
  obtain ⟨-, hn, -, hkey, -⟩ := params_legal_iff.1 hp
  rw [← Bool.not_eq_true, inInputs_iff]
  omega

theorem bufferByte_storeBytes {s : State} (hp : s.params.legal = true) (off : Nat) (v : Word) (b : Nat) :
    bufferByte (storeBytes off v s) b =
      if off ≤ b ∧ b < off + 4 ∧ inInputs s.params b = true then byteOfWord v (b - off) else bufferByte s b := by
  have hparams : (storeBytes off v s).params = s.params := by
    obtain ⟨m, hm⟩ := storeBytes_eq off v s
    rw [hm]
  by_cases hst : off ≤ b ∧ b < off + 4 ∧ inInputs s.params b = true
  · obtain ⟨h1, h2, h3⟩ := hst
    simp [bufferByte, hparams, storeBytes_read hp, implemented, h1, h2, h3]
  · simp [bufferByte, hparams, storeBytes_read hp, hst]

/-- Inside the TEXT_IN and KEY windows the implemented bytes are those a host can store to. -/
theorem implemented_eq_inInputs {p : Params} {a : Nat} (ha : a < 0x300) : implemented p a = inInputs p a := by
  have hout : inOutputs p a = false := by
    rw [← Bool.not_eq_true, inOutputs_iff]
    omega
  rw [implemented, hout, Bool.or_false]

/-- Settles O38: the write is a `storeBytes`, which changes only the memory (`storeBytes_eq`) and of that only the
implemented bytes of its word (`bufferByte_storeBytes`). -/
theorem bufferWritesStoreImplementedBytes : Obligations.BufferWritesStoreImplementedBytes := by
  unfold Obligations.BufferWritesStoreImplementedBytes
  intro s off v rest hi hb ho hlo hhi h
  have hp := hi.params_legal
  have hstep := step_write_idle hb (by simp only [windowBytes]; omega) ho (by simp only [offCmd]; omega) h
  rw [storeWord_buffer (by omega)] at hstep
  refine ⟨_, s.wait - 1, hstep, ?_, fun k hk => ?_, fun a ha => ?_,
    fun k hk => byte_readWord_buffer (by omega) _ hk⟩
  · obtain ⟨m, hm⟩ := storeBytes_eq off v s
    rw [hm]
    rfl
  · refine (bufferByte_storeBytes hp off v (off + k)).trans ?_
    change _ = if inInputs s.params (off + k) = true then byteOfWord v k else 0
    by_cases hin : inInputs s.params (off + k) = true
    · rw [if_pos ⟨by omega, by omega, hin⟩, if_pos hin, Nat.add_sub_cancel_left]
    · rw [if_neg fun ⟨_, _, hc⟩ => hin hc, if_neg hin, bufferByte, implemented_eq_inInputs (by omega), if_neg hin]
      rfl
  · exact (bufferByte_storeBytes hp off v a).trans (if_neg (by omega))

/-- Settles O41: each byte is an implemented one of its buffer, read in the word that holds it
(`byte_readWord_implemented`), and the bits are those of `bitsOf`. -/
theorem bufferBytesPackLittleEndian : Obligations.BufferBytesPackLittleEndian := by
  unfold Obligations.BufferBytesPackLittleEndian
  refine ⟨fun s k _ => ⟨fun hk => ?_, fun hk => ?_, fun hk => ?_, fun j hj hk => ?_⟩, getD_bitsOf⟩
  · exact byte_readWord_implemented (by omega) (implemented_iff.2 (.inl (inInputs_iff.2 (by omega))))
  · exact byte_readWord_implemented (by omega) (implemented_iff.2 (.inl (inInputs_iff.2 (by omega))))
  · exact byte_readWord_implemented (by omega) (implemented_iff.2 (.inr (inOutputs_iff.2 (by omega))))
  · exact byte_readWord_implemented (by omega) (implemented_iff.2 (.inr (inOutputs_iff.2 (by omega))))

/-! Transactions that touch no state of the block. -/

/-- Settles O34: a read transaction touches only the responses and the draw index (`runTransaction_read`). -/
theorem readsChangeNothing : Obligations.ReadsChangeNothing := by
  unfold Obligations.ReadsChangeNothing
  intro s addr size rest h
  obtain ⟨rs, d, hr⟩ := runTransaction_read addr size { s with host := rest, wait := s.wait - 1 }
  exact ⟨rs, s.wait - 1, d, (step_host h).trans hr⟩

/-- Settles O35: an access that is not legal never gets past the check of `runTransaction`. -/
theorem otherAccessesEndWithError : Obligations.OtherAccessesEndWithError := by
  unfold Obligations.OtherAccessesEndWithError
  intro s t off rest h haddr hoff hbad
  have hill : ¬ legalAccess off t.size = true := fun hl => by
    obtain ⟨hsize, halign⟩ := legalAccess_iff.1 hl
    exact hbad.elim (absurd hsize) (absurd halign)
  refine ⟨s.wait - 1, (step_host h).trans ?_⟩
  cases t with
  | memRead a n =>
    obtain rfl : a = s.params.base + off := haddr
    exact (runTransaction_read_window (s := { s with host := rest, wait := s.wait - 1 }) hoff n).trans (if_neg hill)
  | memWrite a n v =>
    obtain rfl : a = s.params.base + off := haddr
    exact (runTransaction_write_window (s := { s with host := rest, wait := s.wait - 1 }) hoff n v).trans
      (if_neg hill)

theorem windowOffset_eq_none {p : Params} {addr : Nat} (h : addr < p.base ∨ p.base + 0x100000 ≤ addr) :
    windowOffset p addr = none :=
  if_neg (by simp only [windowBytes]; omega)

/-- Settles O44: the address has no offset in the window (`windowOffset_eq_none`), so the event is only consumed. -/
theorem outsideTheWindowNothingHappens : Obligations.OutsideTheWindowNothingHappens := by
  unfold Obligations.OutsideTheWindowNothingHappens
  intro s t rest h hout
  refine ⟨s.wait - 1, (step_host h).trans ?_⟩
  simp only [runEvent, runTransaction, windowOffset_eq_none hout]

/-! Legal accesses while BUSY and while idle. -/

theorem step_write_busy {s : State} {off : Nat} {v : Word} {rest : List HostEvent} (hb : s.busy = true)
    (hw : off < windowBytes) (ho : off % 4 = 0)
    (h : HostMoves s (.access (.memWrite (s.params.base + off) 4 v)) rest) :
    step s = .next (answered (.write .error) rest (s.wait - 1) s) :=
  (step_write hw ho h).trans (if_pos hb)

theorem readableWhileBusy_iff {off : Nat} : readableWhileBusy off = true ↔ off = 0x0 ∨ off = 0x4 ∨ off = 0xC := by
  simp only [readableWhileBusy, Bool.or_eq_true, decide_eq_true_eq, or_assoc]
  exact Iff.rfl

/-- Settles O36: BUSY refuses every write (`step_write_busy`), leaves ID, PARAMS and STATUS readable
(`step_read_readable`), and lets any other read answer some data (`step_read`). -/
theorem busyAccesses : Obligations.BusyAccesses := by
  unfold Obligations.BusyAccesses
  intro s off rest hb hw ho
  refine ⟨fun v h => ⟨_, step_write_busy hb hw ho h⟩, fun h => ⟨fun hr => ?_, fun _ => ?_⟩⟩
  · exact ⟨_, step_read_readable hw ho (readableWhileBusy_iff.2 hr) h⟩
  · exact ⟨_, _, _, step_read hw ho h⟩

/-- Settles O37: each of the four writes is its arm of `storeWord`, and the register's bits set to the width of the
bus are the masked word (`mask8`, `mask16`). -/
theorem writableRegistersKeepDefinedBits : Obligations.WritableRegistersKeepDefinedBits := by
  unfold Obligations.WritableRegistersKeepDefinedBits
  intro s off v rest hb h
  refine ⟨s.wait - 1, ?_, ?_, ?_, ?_⟩ <;> rintro rfl
  · exact ⟨step_write_idle hb (by decide) rfl (by decide) h, mask8 v⟩
  · exact ⟨step_write_idle hb (by decide) rfl (by decide) h, mask8 v⟩
  · exact ⟨step_write_idle hb (by decide) rfl (by decide) h, mask8 v⟩
  · exact ⟨step_write_idle hb (by decide) rfl (by decide) h, mask16 v⟩

/-- A word store outside the writable registers and the TEXT_IN and KEY windows is ignored (20_memory.md R56, R60). -/
theorem storeWord_ignored {s : State} (hp : s.params.legal = true) {off : Nat} (v : Word) (ho : off % 4 = 0)
    (hreg : off ∉ [offRounds, offTextLen, offKeyLen, offBitLen]) (hwin : off < 0x100 ∨ 0x300 ≤ off) :
    storeWord off v s = s := by
  simp only [List.mem_cons, List.not_mem_nil, or_false, not_or] at hreg
  obtain ⟨h1, h2, h3, h4⟩ := hreg
  rw [storeWord, if_neg h1, if_neg h2, if_neg h3, if_neg h4]
  exact storeBytes_ignored v fun k hk => inInputs_outside_windows hp ho hwin hk

/-- A legal write to an offset that is no CMD, no writable register and in no input window is answered OKAY and
changes nothing (20_memory.md R56, R60). -/
theorem step_write_ignored {s : State} (hp : s.params.legal = true) (hb : s.busy = false) {off : Nat} {v : Word}
    {rest : List HostEvent} (hw : off < windowBytes) (ho : off % 4 = 0)
    (hreg : off ∉ [0x08, 0x10, 0x14, 0x18, 0x1C]) (hwin : off < 0x100 ∨ 0x300 ≤ off)
    (h : HostMoves s (.access (.memWrite (s.params.base + off) 4 v)) rest) :
    step s = .next (answered (.write .okay) rest (s.wait - 1) s) := by
  obtain ⟨hcmd, hrw⟩ := not_or.1 (mt List.mem_cons.2 hreg)
  rw [step_write_idle hb hw ho hcmd h, storeWord_ignored hp v ho hrw hwin]

theorem traceRecords_le {p : Params} (hp : p.legal = true) : traceRecords p ≤ 258 := by
  obtain ⟨-, -, -, -, -, hr, -⟩ := params_legal_iff.1 hp
  exact Nat.add_le_add_right hr 3

/-- Settles O39: a read-only location is none of the offsets a write reaches (`step_write_ignored`), and the word of
CMD is 0. -/
theorem readOnlyWritesAreIgnored : Obligations.ReadOnlyWritesAreIgnored := by
  unfold Obligations.ReadOnlyWritesAreIgnored
  intro s off v rest hp hb
  refine ⟨fun ho hloc h => ⟨_, step_write_ignored hp hb ?_ ho ?_ ?_ h⟩, fun hoff h => ?_⟩
  · have := traceRecords_le hp
    simp only [List.mem_cons, List.not_mem_nil, or_false] at hloc
    simp only [windowBytes]
    omega
  · simp only [List.mem_cons, List.not_mem_nil, or_false] at hloc ⊢
    omega
  · simp only [List.mem_cons, List.not_mem_nil, or_false] at hloc
    omega
  · subst hoff
    exact ⟨_, step_read_idle hb (by decide) rfl h⟩

/-- Nothing is implemented in the aligned word at a reserved offset (20_memory.md R56). -/
theorem implemented_reserved {p : Params} (hp : p.legal = true) {off : Nat} (ho : off % 4 = 0)
    (hres : (0x2C ≤ off ∧ off < 0x100) ∨ (0x400 ≤ off ∧ off < 0x10000) ∨
      (0x10000 + 0x800 * traceRecords p ≤ off ∧ off < 0x100000)) {k : Nat} (hk : k < 4) :
    implemented p (off + k) = false := by
  have hout := outMax_le hp
  have hin : inInputs p (off + k) = false := inInputs_outside_windows hp ho (by omega) hk
  rw [implemented, hin, Bool.false_or, ← Bool.not_eq_true, inOutputs_iff]
  omega

/-- A word of which no byte is implemented reads 0 (20_memory.md R55, R56). -/
theorem readWord_unimplemented {s : State} {off : Nat} (hoff : 0x2C ≤ off)
    (hn : ∀ k, k < 4 → implemented s.params (off + k) = false) : readWord s off = 0 := by
  have hz : ∀ k, k < 4 → bufferByte s (off + k) = 0 := fun k hk => if_neg (by rw [hn k hk]; decide)
  have h0 : bufferByte s off = 0 := hz 0 (by omega)
  rw [readWord_buffer hoff, h0, hz 1 (by omega), hz 2 (by omega), hz 3 (by omega)]
  rfl

/-- Settles O40: nothing is implemented at a reserved offset (`implemented_reserved`), so its word reads 0 and a write
to it is ignored. -/
theorem reservedOffsetsReadZero : Obligations.ReservedOffsetsReadZero := by
  unfold Obligations.ReservedOffsetsReadZero
  intro s off v rest hp hb ho hres
  have hlow : 0x2C ≤ off := by omega
  have hw : off < windowBytes := by simp only [windowBytes]; omega
  refine ⟨fun h => ⟨s.wait - 1, ?_⟩, fun h => ⟨_, step_write_ignored hp hb hw ho ?_ (by omega) h⟩⟩
  · rw [step_read_idle hb hw ho h, readWord_unimplemented hlow fun k hk => implemented_reserved hp ho hres hk]
  · simp only [List.mem_cons, List.not_mem_nil, or_false]
    omega

/-- Settles O53: an idle read answers the word at its offset (`step_read_idle`), and from 0x2C on that word is four
buffer bytes (`byte_readWord_buffer`). -/
theorem idleReadsAnswerTheCurrentWord : Obligations.IdleReadsAnswerTheCurrentWord := by
  unfold Obligations.IdleReadsAnswerTheCurrentWord
  intro s off rest hb hw ho h
  exact ⟨⟨_, step_read_idle hb hw ho h⟩, fun hlow k hk => byte_readWord_buffer hlow s hk⟩

end Sys2Proof.Machine
end

section
/-! PROOFS of the statements on the encoding of commands, their operands and host programs
(30_encoding.md). -/

namespace Sys2Proof.Machine

/-! Decoding and encoding of CMD words. -/

/-- The opcode map gives each of the sixteen OPCODE values a row of its own (30_encoding.md R81). -/
theorem opcode_decodeOpcode (op : BitVec 4) : opcode (decodeOpcode op) = op := by
  revert op; decide

theorem encode_decode (v : Word) : encode (decode v) = v &&& 0xF := by
  rw [encode, decode, opcode_decodeOpcode]
  exact mask4 v

theorem opcodeField_encode (i : Instr) : opcodeField (encode i) = opcode i :=
  (setWidth_fields (m := 28) (opcode i) rfl).1

theorem decode_encode (i : Instr) : decode (encode i) = i := by
  rw [decode, opcodeField_encode, decodeOpcode_opcode]

/-- Settles O6: a word's command encodes to its bits [3:0] (`encode_decode`), and the command is read back from those
(`decode_encode`). -/
theorem decodingReadsOpcodeAlone : Obligations.DecodingReadsOpcodeAlone := by
  unfold Obligations.DecodingReadsOpcodeAlone
  refine ⟨encode_decode, fun v w h => ?_, decode_encode⟩
  calc decode v = decode (encode (decode v)) := (decode_encode _).symm
    _ = decode (encode (decode w)) := by rw [encode_decode, encode_decode, h]
    _ = decode w := decode_encode _

/-- Settles O7: the sixteen words are the CMD words of the sixteen commands, each of which decodes to its command. -/
theorem opcodeMapOfCmdWords : Obligations.OpcodeMapOfCmdWords := by
  unfold Obligations.OpcodeMapOfCmdWords
  exact ⟨decode_encode .nop, decode_encode .encode, decode_encode .decode, decode_encode .derive, decode_encode .mix,
    decode_encode .encrypt, decode_encode .decrypt, decode_encode .reserved7, decode_encode .reserved8,
    decode_encode .reserved9, decode_encode .reservedA, decode_encode .reservedB, decode_encode .reservedC,
    decode_encode .reservedD, decode_encode .reservedE, decode_encode .reservedF⟩

/-- A NOP write while idle is answered OKAY and changes nothing (40_command_lifecycle.md R109). -/
theorem step_write_nop_idle {s : State} {v : Word} {rest : List HostEvent} (hb : s.busy = false)
    (hv : decode v = .nop) (h : HostMoves s (.access (.memWrite (s.params.base + offCmd) 4 v)) rest) :
    step s = .next (answered (.write .okay) rest (s.wait - 1) s) := by
  have hexec : exec (decode v) { s with host := rest, wait := s.wait - 1 } =
      .next { s with host := rest, wait := s.wait - 1 } := by rw [hv]; exact exec_nop _
  have hwrite := runWrite_cmd (s := { s with host := rest, wait := s.wait - 1 }) hb hexec
  exact (step_write (by decide) rfl h).trans hwrite

/-- Settles O11: the word's OPCODE field is that of NOP alone, and its write is refused while BUSY
(`step_write_busy`) and runs NOP while idle (`step_write_nop_idle`). -/
theorem nopWriteHasNoEffect : Obligations.NopWriteHasNoEffect := by
  unfold Obligations.NopWriteHasNoEffect
  refine ⟨exec_nop, fun s v rest h hv => ?_⟩
  have hnop : decode v = .nop := Sys2Proof.Laws.OpcodeAlone.nop.2 v hv
  refine ⟨hnop, s.wait - 1, ?_⟩
  cases hb : s.busy with
  | true => exact step_write_busy hb (by decide) rfl h
  | false => exact step_write_nop_idle hb hnop h

/-! The data of a legal read, and of a poll. -/

theorem readData_idle {s : State} (hb : s.busy = false) (off : Nat) : readData s off = readWord s off := by
  simp [readData, hb]

theorem readData_readable {off : Nat} (hr : readableWhileBusy off = true) (s : State) :
    readData s off = readWord s off := by
  simp [readData, hr]

/-- A poll inside the window is one legal read, after which the poll comes again unless the masked data is the value
(30_encoding.md R86). -/
theorem runPoll_window {s : State} {off : Nat} (hw : off < windowBytes) (ho : off % 4 = 0) (mask value : Word) :
    runPoll (s.params.base + off) mask value s =
      .next { respond (.read .okay (readData s off)) { s with draws := drawsAfterRead s off } with
        host := if readData s off &&& mask = value then s.host
          else .poll (s.params.base + off) mask value :: s.host } := by
  rw [runPoll, runTransaction_read_window hw, if_pos (legalAccess_iff.2 ⟨rfl, ho⟩)]
  by_cases hmet : readData s off &&& mask = value <;> simp [windowOffset_base _ hw, pollMet, hmet, respond]

/-- Settles O46: a poll is one read and its own repetition (`runPoll_window`), and the data is the word while idle and
for STATUS (`readData_idle`, `readData_readable`). -/
theorem pollRepeatsUntilItsValue : Obligations.PollRepeatsUntilItsValue := by
  unfold Obligations.PollRepeatsUntilItsValue
  intro s off mask value rest hw ho h
  refine ⟨readData s off, s.wait - 1, drawsAfterRead s off, fun hb => readData_idle hb off, ?_, ?_⟩
  · rintro rfl
    exact readData_readable (by decide) s
  · rw [step_host h, h.2]
    exact runPoll_window (s := { s with host := rest, wait := s.wait - 1 }) hw ho mask value

/-! `rd OFF -> V`. -/

theorem wellFormed_rd_iff {off : Nat} {stated : Option Word} :
    (HostStatement.rd off stated).wellFormed = true ↔ off < windowBytes ∧ off % 4 = 0 := by
  simp [HostStatement.wellFormed, legalAccess, and_comm]

/-- Settles O55: the statement is the one read of `step_read`, whose data its answer is held to
(`programMet_rd_stated`). -/
theorem statedReadIsMetByItsDataAlone : Obligations.StatedReadIsMetByItsDataAlone := by
  unfold Obligations.StatedReadIsMetByItsDataAlone
  intro s off v rest hwf
  obtain ⟨hw, ho⟩ := wellFormed_rd_iff.1 hwf
  refine ⟨_, rfl, rfl, fun h => ⟨_, _, _, step_read hw ho h, ?_, by simp, by simp⟩⟩
  rintro (hb | hr)
  · exact readData_idle hb off
  · exact readData_readable (readableWhileBusy_iff.2 hr) s

/-- Lines `rd OFF -> V` are met by OKAY answers exactly if the data of each is its V. -/
theorem programMet_reads (p : Params) (reads : List (Nat × Word)) (data : Nat → Word) :
    programMet p (reads.map fun x => .rd x.1 (some x.2)) (reads.map fun x => .read .okay (data x.1)) = true ↔
      ∀ x ∈ reads, data x.1 = x.2 := by
  induction reads with
  | nil => simp
  | cons x xs ih => simp [ih]

theorem expandProgram_reads (p : Params) (reads : List (Nat × Word)) :
    expandProgram p (reads.map fun x => .rd x.1 (some x.2)) =
      reads.map fun x => .access (.memRead (p.base + x.1) 4) := by
  rw [expandProgram, List.flatMap_map, List.map_eq_flatMap]
  rfl

/-- Settles O56: the queued reads answer the words at their offsets (`run_reads`), and those answers meet the program
exactly if they are the stated ones (`programMet_reads`). -/
theorem readProgramIsMetByTheCurrentWords : Obligations.ReadProgramIsMetByTheCurrentWords := by
  unfold Obligations.ReadProgramIsMetByTheCurrentWords
  intro s reads hb program hwf hh
  have hlegal : ∀ x ∈ reads, x.1 < windowBytes ∧ x.1 % 4 = 0 := fun x hx =>
    wellFormed_rd_iff.1 (hwf _ (List.mem_map_of_mem hx))
  obtain ⟨w, hrun⟩ := run_reads reads s hb hlegal (hh.trans (expandProgram_reads s.params reads))
  exact ⟨_, _, hrun, rfl, rfl, rfl, fun _ => rfl, programMet_reads s.params reads (readWord s)⟩

/-! `loadtext`. -/

/-- The stores `loadtext x` stands for: the words of the text, and its length (30_encoding.md R87). -/
def loadtextPairs (x : Text) : List (Nat × Word) :=
  textPairs x ((x.length + 3) / 4) ++ [(offTextLen, BitVec.ofNat 32 x.length)]

theorem expand_loadtext (p : Params) (x : Text) :
    expand p (.loadtext x) = (loadtextPairs x).map fun q => writeEvent p q.1 q.2 := by
  simp [expand, loadEvents, loadtextPairs, textPairs]

/-- The writes of `loadtext` go to aligned offsets of the window other than CMD. -/
theorem loadtextPairs_legal {x : Text} (hx : x.length ≤ 255) :
    ∀ q ∈ loadtextPairs x, q.1 < windowBytes ∧ q.1 % 4 = 0 ∧ q.1 ≠ offCmd := by
  intro q hq
  rcases List.mem_append.1 hq with hq | hq
  · obtain ⟨w, hw, rfl⟩ := List.mem_map.1 hq
    have := List.mem_range.1 hw
    simp only [textInBase, windowBytes, offCmd]
    omega
  · obtain rfl := List.mem_singleton.1 hq
    exact ⟨(by decide : offTextLen < windowBytes), (by decide : offTextLen % 4 = 0),
      (by decide : offTextLen ≠ offCmd)⟩

/-- What the stores of `loadtext` leave: the text in TEXT_IN, its length in TEXT_LEN, and KEY as it was. -/
theorem storeAll_loadtextPairs {s : State} (hp : s.params.legal = true) {x : Text} (hx : x.length ≤ s.params.nMax) :
    ∃ m, storeAll (loadtextPairs x) s = { s with mem := m, textLen := BitVec.ofNat 8 x.length } ∧
      m.readRange textInBase x.length = x ∧ ∀ n, m.readRange keyBase n = s.mem.readRange keyBase n := by
  obtain ⟨-, hn, -⟩ := params_legal_iff.1 hp
  obtain ⟨m, hm, hread⟩ := storeAll_textPairs x ((x.length + 3) / 4) s hp (by omega)
  refine ⟨m, ?_, ?_, fun n => readRange_congr fun k _ => ?_⟩
  · have hlen : (BitVec.ofNat 32 x.length).extractLsb' 0 8 = BitVec.ofNat 8 x.length := by
      apply BitVec.eq_of_toNat_eq
      simp
    calc storeAll (loadtextPairs x) s = storeWord offTextLen (BitVec.ofNat 32 x.length) { s with mem := m } := by
          rw [← hm]; simp only [storeAll, loadtextPairs, List.foldl_append, List.foldl_cons, List.foldl_nil]
      _ = { s with mem := m, textLen := (BitVec.ofNat 32 x.length).extractLsb' 0 8 } := rfl
      _ = _ := by rw [hlen]
  · apply text_ext (Memory.length_readRange _ _ _)
    intro k hk
    rw [Memory.length_readRange] at hk
    rw [Memory.getD_readRange _ _ _ _ hk, hread, if_pos (by simp only [textInBase]; omega)]
    simp [textInBase]
  · rw [hread, if_neg (by simp only [keyBase]; omega)]

/-- Settles O49: the expansion of `loadtext x` is a run of queued writes (`run_writes`), whose stores load the text
(`storeAll_loadtextPairs`). -/
theorem loadtextLoadsTheText : Obligations.LoadtextLoadsTheText := by
  unfold Obligations.LoadtextLoadsTheText
  intro s x hi hb _ hx hh
  have hp := hi.params_legal
  obtain ⟨-, hn, -⟩ := params_legal_iff.1 hp
  rw [expand_loadtext] at hh
  obtain ⟨rs, w, hrun⟩ := run_writes (loadtextPairs x) s [] hb (loadtextPairs_legal (by omega))
    (hh.trans (List.append_nil _).symm)
  obtain ⟨m, hm, htext, hkey⟩ := storeAll_loadtextPairs hp hx
  have hlen : (BitVec.ofNat 8 x.length).toNat = x.length := by rw [BitVec.toNat_ofNat]; omega
  rw [hm] at hrun
  rw [hh, List.length_map]
  refine ⟨_, hrun, hb, rfl, ?_, hlen, rfl, hkey _, rfl, rfl⟩
  change m.readRange textInBase (BitVec.ofNat 8 x.length).toNat = x
  rw [hlen, htext]

/-! A command's outcome depends on the operands of 30_encoding.md R85 alone. -/

/-- A result depends on the operands a command reads, and on nothing else (30_encoding.md R85). -/
theorem commandResult_congr {i : Instr} {l1 l2 : Latched} (hk : usesKey i = true → l1.keyText = l2.keyText)
    (hr : usesRounds i = true → l1.rounds = l2.rounds) (ht : usesText i = true → l1.text = l2.text)
    (hb : usesBits i = true → bitsOf l1.textIn l1.bitLen.toNat = bitsOf l2.textIn l2.bitLen.toNat) :
    commandResult i l1 = commandResult i l2 := by
  cases i with
  | encode => simp only [commandResult, encodeResult, ht rfl]
  | decode => simp only [commandResult, decodeResult, hb rfl]
  | derive => simp only [commandResult, deriveResult, hk rfl, hr rfl]
  | mix => simp only [commandResult, mixResult, hk rfl, hb rfl]
  | encrypt => simp only [commandResult, encryptResult, ht rfl, hk rfl, hr rfl]
  | decrypt => simp only [commandResult, decryptResult, ht rfl, hk rfl, hr rfl]
  | _ => rfl

/-- Buffers that agree on their first `n` bits hold the same BitString of `n` bits (41_codec.md R120). -/
theorem bitsOf_readRange_congr {m1 m2 : Memory} {a size n : Nat} (hn : n ≤ 8 * size)
    (h : ∀ j, j < n → (m1.read (a + j / 8)).getLsbD (7 - j % 8) = (m2.read (a + j / 8)).getLsbD (7 - j % 8)) :
    bitsOf (m1.readRange a size) n = bitsOf (m2.readRange a size) n := by
  apply bits_ext (by simp)
  intro j hj
  rw [length_bitsOf] at hj
  rw [getD_bitsOf _ _ _ hj, getD_bitsOf _ _ _ hj, Memory.getD_readRange _ _ _ _ (by omega),
    Memory.getD_readRange _ _ _ _ (by omega), h j hj]

/-- Two states agree on everything a completion reports: STATUS, the lengths and the count and, when DONE, every byte
of OUT and TRACE. -/
def SameOutcome (p : Params) (t1 t2 : State) : Prop :=
  t1.busy = false ∧ t2.busy = false ∧ t1.done = t2.done ∧ t1.err = t2.err ∧ t1.errcode = t2.errcode ∧
    t1.lastOp = t2.lastOp ∧ statusWord t1 = statusWord t2 ∧ t1.outLen = t2.outLen ∧ t1.outBits = t2.outBits ∧
    t1.traceCount = t2.traceCount ∧
    (t1.done = true → ∀ a, inOutputs p a = true → bufferByte t1 a = bufferByte t2 a)

theorem raiseError_sameOutcome {s1 s2 : State} (hop : s1.lastOp = s2.lastOp) (e : ErrorCode) :
    SameOutcome s1.params (raiseError e s1) (raiseError e s2) := by
  refine ⟨rfl, rfl, rfl, rfl, rfl, hop, ?_, rfl, rfl, rfl, fun h => by simp at h⟩
  simp [statusWord, hop]

theorem completeOk_sameOutcome {s1 s2 : State} (hp : s1.params = s2.params) (hop : s1.lastOp = s2.lastOp)
    (r : Result) : SameOutcome s1.params (completeOk r s1) (completeOk r s2) := by
  refine ⟨rfl, rfl, rfl, rfl, rfl, hop, ?_, rfl, rfl, rfl, fun _ => completeOk_outputs hp r⟩
  simp [statusWord, hop]

/-- Completions with the same failing check, or with none and the same result, have the same outcome. -/
theorem complete_sameOutcome {i : Instr} {s1 s2 : State} {l1 l2 : Latched} {f1 f2 : Except ErrorCode Result}
    (hp : s1.params = s2.params) (hop : s1.lastOp = s2.lastOp)
    (hv : validate s1.params i l1 = validate s1.params i l2) (hf : validate s1.params i l1 = none → f1 = f2) :
    SameOutcome s1.params (complete i l1 f1 s1) (complete i l2 f2 s2) := by
  unfold complete
  rw [← hp, ← hv]
  cases hval : validate s1.params i l1 with
  | some e => exact raiseError_sameOutcome hop e
  | none =>
    rw [← hf hval]
    cases f1 with
    | error e => exact raiseError_sameOutcome hop e
    | ok r => exact completeOk_sameOutcome hp hop r

/-- NOP is never in progress: LAST_OP is that of an accepted command while BUSY (10_state.md R31). -/
theorem InProgress.ne_nop {i : Instr} {s : State} (h : InProgress i s) : i ≠ .nop := by
  rintro rfl
  exact Bool.false_ne_true ((h.inv.last_op h.command).1.symm.trans h.busy)

/-- The completion of the command in progress is from the current registers and buffers (10_state.md R43). -/
theorem exec_inProgress {i : Instr} {s : State} (h : InProgress i s) :
    exec i s = .next (complete i (latchOperands (opcode i) s) (commandResult i (latchOperands (opcode i) s)) s) := by
  obtain ⟨hb, hl, ho⟩ := latches_of_inProgress h
  rw [exec_eq_runCommand h.ne_nop, runCommand_latched hb hl ho]

/-- Settles O48: the operands read decide the failing check (`validate_congr`) and, where there is none and the
lengths are in range, the result (`commandResult_congr`); these decide the outcome (`complete_sameOutcome`). -/
theorem outcomeDependsOnlyOnReadOperands : Obligations.OutcomeDependsOnlyOnReadOperands := by
  unfold Obligations.OutcomeDependsOnlyOnReadOperands
  intro i s1 s2 h1 h2 hp hkey hrounds htext hbits
  rw [← usesKey_iff] at hkey
  rw [← usesRounds_iff] at hrounds
  rw [← usesText_iff] at htext
  rw [← usesBits_iff] at hbits
  refine ⟨_, _, exec_inProgress h1, exec_inProgress h2,
    complete_sameOutcome hp (h1.command.trans h2.command.symm) ?_ fun hv => ?_⟩
  · exact validate_congr (fun h => (hkey h).1) hrounds (fun h => (htext h).1) (fun h => (hbits h).1)
  · obtain ⟨-, hkeyOk, -, htextOk, hbitsOk⟩ := validate_none_bounds hv
    refine commandResult_congr (fun h => ?_) hrounds (fun h => ?_) (fun h => ?_)
    · obtain ⟨hlen, hbytes⟩ := hkey h
      have hle : s1.keyLen.toNat ≤ s1.params.kMax := (hkeyOk h).2
      rw [latchOperands_keyText _ hle, latchOperands_keyText _ (hlen ▸ hp ▸ hle), State.keyText, State.keyText,
        ← hlen]
      exact readRange_congr hbytes
    · obtain ⟨hlen, hbytes⟩ := htext h
      have hle : s1.textLen.toNat ≤ s1.params.nMax := (htextOk h).2
      rw [latchOperands_text _ hle, latchOperands_text _ (hlen ▸ hp ▸ hle), State.inputText, State.inputText,
        ← hlen]
      exact readRange_congr hbytes
    · obtain ⟨hlen, hbytes⟩ := hbits h
      simp only [latchOperands, ← hlen, ← hp]
      exact bitsOf_readRange_congr (hbitsOk h).2 hbytes

end Sys2Proof.Machine
end

section
/-! PROOFS of the statements on the command lifecycle (40_command_lifecycle.md). -/

namespace Sys2Proof.Machine

/-! A completion that fails, and one that succeeds. -/

/-- With the command's operands latched, its execution is the completion from them (40_command_lifecycle.md R103). -/
theorem exec_latched {i : Instr} {s : State} {l : Latched} (hn : i ≠ .nop) (h : Latches s i l) :
    exec i s = .next (complete i l (commandResult i l) s) := by
  obtain ⟨hb, hl, ho⟩ := h
  rw [exec_eq_runCommand hn, runCommand_latched hb hl ho]

theorem raiseError_eq_failedWith (e : ErrorCode) (s : State) : raiseError e s = failedWith e.code s := rfl

theorem exec_failed {i : Instr} {s : State} {l : Latched} {e : ErrorCode} (hn : i ≠ .nop) (h : Latches s i l)
    (hv : validate s.params i l = some e) : exec i s = .next (failedWith e.code s) := by
  rw [exec_latched hn h]
  simp only [complete, hv, raiseError_eq_failedWith]

/-- The reserved OPCODE values are those from 7 on (30_encoding.md R83). -/
theorem isReserved_iff {i : Instr} : isReserved i = true ↔ 7 ≤ (opcode i).toNat := by
  cases i <;> decide

/-- Settles O13: the statement's chain is `validate`, code by code; a code it gives is raised (`exec_failed`), and
with none the operands have a result, which is completed (`exec_ok`). -/
theorem validationReportsFirstFailure : Obligations.ValidationReportsFirstFailure := by
  unfold Obligations.ValidationReportsFirstFailure
  intro i s l hn h key rounds text bits code
  have hcode : code = (validate s.params i l).map ErrorCode.code := by
    simp only [code, key, rounds, text, bits, validate, apply_ite (Option.map ErrorCode.code), Option.map_some,
      Option.map_none, Bool.and_eq_true, decide_eq_true_eq, isReserved_iff, usesKey_iff, usesRounds_iff, usesText_iff,
      usesBits_iff, ErrorCode.code]
  rw [hcode]
  cases hv : validate s.params i l with
  | some e =>
    refine ⟨fun c hc => ?_, nofun⟩
    obtain rfl : e.code = c := Option.some.inj hc
    exact exec_failed hn h hv
  | none =>
    obtain ⟨r, hr⟩ := commandResult_isOk hn hv
    exact ⟨nofun, fun _ => ⟨_, exec_ok hn h hv hr, completeOk_doneFrom s r⟩⟩

/-- Settles O14: the lengths of a result that fits are below the widths of their registers; the rest is what the laws
of `completeOk` say of OUT, of each record's slot, of the slots after them and of the inputs. -/
theorem completionWritesOutputs : Obligations.CompletionWritesOutputs := by
  unfold Obligations.CompletionWritesOutputs
  intro s r hp hbits hrecords hfits
  have hout := outMax_le hp
  have htrace := traceRecords_le hp
  refine ⟨fun k hk => completeOk_read_out hp r hk, ?_, ?_, ?_,
    fun j rec hr => completeOk_slotHolds hp hrecords hr (hfits rec (List.mem_of_getElem? hr)),
    fun j o hj _ _ => completeOk_read_past hp r o hj, completeOk_doneFrom s r, completeOk_keepsInputs hp r⟩
  · rw [completeOk_outBits, BitVec.toNat_ofNat]; omega
  · rw [completeOk_outLen, length_packBits, BitVec.toNat_ofNat]; omega
  · rw [completeOk_traceCount, BitVec.toNat_ofNat]; omega

/-- Settles O12: the first check of R104 is the OPCODE's, so a reserved command is accepted like any other and fails at
it, whatever its operands (`exec_failed`). -/
theorem reservedCommandsAreIllegal : Obligations.ReservedCommandsAreIllegal := by
  unfold Obligations.ReservedCommandsAreIllegal
  intro i hi
  have hres : isReserved i = true := by
    revert i; decide
  have hn : i ≠ .nop := by rintro rfl; cases hres
  refine ⟨fun s hb => ⟨_, (exec_idle hb i).trans (by rw [if_neg hn]), accept_busy _ _, accept_lastOp _ _⟩,
    fun s l h => exec_failed hn h (if_pos hres)⟩

/-! Acceptance, and the step that runs a command. -/

/-- Settles O10: an idle command other than NOP is accepted (`exec_idle`), and `accept` is the change of R101. -/
theorem acceptanceLatchesOperands : Obligations.AcceptanceLatchesOperands := by
  unfold Obligations.AcceptanceLatchesOperands
  intro i s hn hb
  rw [exec_idle hb, if_neg hn]
  exact ⟨_, _, rfl⟩

/-- A CMD write while idle is the command its word decodes to, answered OKAY (40_command_lifecycle.md R100). -/
theorem step_write_cmd_idle {s : State} {v : Word} {rest : List HostEvent} (hb : s.busy = false)
    (h : HostMoves s (.access (.memWrite (s.params.base + offCmd) 4 v)) rest) :
    ∃ t, exec (decode v) { s with host := rest, wait := s.wait - 1 } = .next t ∧
      step s = .next (respond (.write .okay) t) := by
  obtain ⟨t, ht, -⟩ := exec_next (decode v) { s with host := rest, wait := s.wait - 1 }
  exact ⟨t, ht, (step_write (by decide) rfl h).trans (runWrite_cmd hb ht)⟩

/-- Settles O8: a placed command is a CMD write that comes next while idle, so both parts are
`step_write_cmd_idle`. -/
theorem cmdWriteRunsDecodedCommand : Obligations.CmdWriteRunsDecodedCommand := by
  unfold Obligations.CmdWriteRunsDecodedCommand
  refine ⟨fun s v rest h hb => step_write_cmd_idle hb h, fun s nbits w => ?_⟩
  exact step_write_cmd_idle (s := s.withFetchWord nbits w) rfl (hostMoves_idle rfl rfl)

theorem engineMoves_iff {s : State} :
    engineMoves s = true ↔ s.busy = true ∧ s.latched.isSome = true ∧ (s.host = [] ∨ s.wait = 0) := by
  simp [engineMoves, and_assoc]

/-- The engine agent's move is the completion step of the latched OPCODE (40_command_lifecycle.md R103). -/
theorem step_engine {s : State} {l : Latched} (hl : s.latched = some l) (h : engineMoves s = true) :
    step s = exec (decodeOpcode l.op) s := by
  simp only [step, nextEvent, if_pos h, engineMove, hl]

/-- Settles O9: with no host event before the completion the engine agent moves (`engineMoves_iff`), and its move is
the latched command (`step_engine`). -/
theorem engineStepRunsLatchedCommand : Obligations.EngineStepRunsLatchedCommand := by
  unfold Obligations.EngineStepRunsLatchedCommand
  intro s l hb hl hw
  exact step_engine hl (engineMoves_iff.2 ⟨hb, by rw [hl]; rfl, hw.symm⟩)

/-! The block never stops, and a command in progress completes. -/

/-- Settles O5: each of the things a step can do is a next state (`step_cases`). -/
theorem stepAlwaysAnswersNext : Obligations.StepAlwaysAnswersNext := by
  unfold Obligations.StepAlwaysAnswersNext
  intro s
  obtain ⟨t, ht, -⟩ := step_cases s
  exact ⟨t, ht⟩

theorem ChannelOnly.lastOp {s u : State} (h : ChannelOnly s u) : u.lastOp = s.lastOp := by
  obtain ⟨_, _, _, _, rfl⟩ := h; rfl

/-- While the engine agent of a busy block does not move, a host event other than a reset touches only the host's
channel, and brings the completion one event nearer: none comes before it that did not already. -/
theorem step_before_completion {s : State} (hb : s.busy = true) (hl : s.latched.isSome = true)
    (he : ¬ engineMoves s = true) (hr : ∀ x, HostEvent.reset x ∉ s.host.take s.wait) :
    ∃ u, step s = .next u ∧ ChannelOnly s u ∧ s.wait = u.wait + 1 ∧ u.host.take u.wait ⊆ s.host.take s.wait := by
  have hmove : ¬ (s.host = [] ∨ s.wait = 0) := fun h => he (engineMoves_iff.2 ⟨hb, hl, h⟩)
  obtain ⟨hhost, hwait⟩ := not_or.1 hmove
  obtain ⟨e, rest, hh⟩ := List.exists_cons_of_ne_nil hhost
  obtain ⟨n, hn⟩ := Nat.exists_eq_succ_of_ne_zero hwait
  rw [hn, hh, List.take_succ_cons] at hr
  have hne : ∀ x, e ≠ .reset x := fun x hx => hr x (hx ▸ List.mem_cons_self)
  obtain ⟨rs, d, b, hstep⟩ := step_busy hb ⟨eq_false_of_ne_true he, hh⟩ hne
  refine ⟨_, hstep, ⟨_, _, _, _, rfl⟩, by simp only [hn]; omega, ?_⟩
  simp only [hn, hh, Nat.succ_sub_one]
  cases b with
  | true => exact List.subset_cons_of_subset e (List.Subset.refl _)
  | false => exact (List.take_sublist_take_left (Nat.le_succ n)).subset

/-- With no reset among the host events before the completion, within as many steps the engine agent moves, and until
then only the host's channel has changed. -/
theorem run_until_engineMoves (n : Nat) {s : State} (hn : s.wait = n) (hb : s.busy = true)
    (hl : s.latched.isSome = true) (hr : ∀ x, HostEvent.reset x ∉ s.host.take s.wait) :
    ∃ k u, k ≤ n ∧ Host.Core.run core k s = .next u ∧ ChannelOnly s u ∧ engineMoves u = true := by
  induction n generalizing s with
  | zero => exact ⟨0, s, Nat.le_refl 0, rfl, ChannelOnly.refl s, engineMoves_iff.2 ⟨hb, hl, .inr hn⟩⟩
  | succ n ih =>
    by_cases he : engineMoves s = true
    · exact ⟨0, s, Nat.zero_le _, rfl, ChannelOnly.refl s, he⟩
    · obtain ⟨s', hstep, hc, hwait, hsub⟩ := step_before_completion hb hl he hr
      obtain ⟨k, u, hk, hrun, hcu, hu⟩ := ih (s := s') (by omega) (hc.busy.trans hb)
        (hc.latched.symm ▸ hl) fun x hx => hr x (hsub hx)
      exact ⟨k + 1, u, Nat.succ_le_succ hk, (run_succ hstep k).trans hrun, hc.trans hcu, hu⟩

/-- However a completion ends, nothing is in progress after it, and LAST_OP is kept (40_command_lifecycle.md R106,
R107). -/
theorem complete_idle (i : Instr) (l : Latched) (f : Except ErrorCode Result) (s : State) :
    (complete i l f s).busy = false ∧ (complete i l f s).latched = none ∧
      (complete i l f s).lastOp = s.lastOp := by
  rcases complete_cases i l f s with ⟨e, ht, -⟩ | ⟨r, ht, -⟩ <;> rw [ht] <;> exact ⟨rfl, rfl, rfl⟩

/-- By the invariant the latched OPCODE is that of the command in progress (10_state.md R31, R43). -/
theorem Inv.inProgress {s : State} {l : Latched} (hi : Inv s) (hl : s.latched = some l) :
    InProgress (decodeOpcode l.op) s where
  inv := hi
  busy := by rw [← hi.latched_busy, hl]; rfl
  command := by rw [opcode_decodeOpcode, hi.latched_current l hl]; rfl

/-- Settles O47: the engine agent moves within `s.wait` steps, the command still in progress
(`run_until_engineMoves`), and its move is a completion (`exec_inProgress`), which leaves the block idle. -/
theorem acceptedCommandCompletes : Obligations.AcceptedCommandCompletes := by
  unfold Obligations.AcceptedCommandCompletes
  intro s l hi hl hr
  have hb : s.busy = true := (hi.inProgress hl).busy
  obtain ⟨k, u, hk, hrun, hc, he⟩ := run_until_engineMoves s.wait rfl hb (by rw [hl]; rfl) hr
  have hlu : u.latched = some l := hc.latched.trans hl
  have hexec := exec_inProgress ((hi.channel hc).inProgress hlu)
  have hstep := step_engine hlu he
  obtain ⟨hbt, hlt, hot⟩ := complete_idle _ _ _ u
  exact ⟨k, u, _, hk, hrun, hc.busy.trans hb, hlu, hc.mem, hstep, hstep.trans hexec, hbt, hlt, hot.trans hc.lastOp⟩

end Sys2Proof.Machine
end

section
/-! PROOFS of the statements on the codec (41_codec.md). -/

namespace Sys2Proof.Machine

/-! The codec's functions. -/

/-- Bit `7 - j` of byte `k` of a packed BitString is its bit `8 k + j`, a missing bit read as 0 (41_codec.md R121). -/
theorem getLsbD_getD_packBits (s : BitString) (k : Nat) {j : Nat} (hj : j < 8) :
    ((packBits s).getD k 0#8).getLsbD (7 - j) = s.getD (8 * k + j) false := by
  rw [getD_packBits, getLsbD_byteAt s k j hj]

/-- Unpacking undoes packing (41_codec.md R120, R121). -/
theorem bitsOf_packBits (s : BitString) : bitsOf (packBits s) s.length = s := by
  apply bits_ext (length_bitsOf _ _)
  intro i hi
  rw [length_bitsOf] at hi
  rw [getD_bitsOf _ _ _ hi, packBits_pad]

/-- Settles O32: each bit is where `getLsbD_getD_packBits` reads it, which beyond the string is the 0 of the padding,
and unpacking is `bitsOf_packBits`. -/
theorem packBitsPlacesEveryBit : Obligations.PackBitsPlacesEveryBit := by
  unfold Obligations.PackBitsPlacesEveryBit
  refine fun s => ⟨length_packBits s, fun k j _ hj => ?_, bitsOf_packBits s⟩
  refine (getLsbD_getD_packBits s k hj).trans ?_
  split
  · rfl
  · next hpast => exact List.getD_eq_default _ _ (Nat.le_of_not_lt hpast)

/-- Settles O31: on whole bytes decoding is `packBits` (`decodeBits_ok`), which undoes the encoding and is undone by
it (`packBits_encodeText`, `encodeText_packBits`). -/
theorem codecRoundTrips : Obligations.CodecRoundTrips := by
  unfold Obligations.CodecRoundTrips
  refine ⟨fun t => ?_, fun s h8 => ⟨packBits s, decodeBits_ok h8, encodeText_packBits h8⟩⟩
  rw [decodeBits_ok (by rw [length_encodeText, Nat.mul_mod_right]), packBits_encodeText]

/-! The commands of the codec. -/

/-- `t` is `s` after a successful command whose result is the text `x` of `n` bytes, with no trace
(40_command_lifecycle.md R106). -/
def WritesText (s t : State) (x : Text) (n : Nat) : Prop :=
  DoneFrom s t ∧ KeepsInputs s t ∧ t.outLen.toNat = n ∧ t.outBits.toNat = 8 * n ∧ t.traceCount = 0 ∧
    t.outText = x ∧ OutZeroFrom t n ∧ TraceZeroFrom t 0

/-- A command in progress whose operands pass validation writes its result, where that is a text without a trace. -/
theorem exec_writesText {i : Instr} {s : State} {x : Text} {n : Nat} (h : InProgress i s)
    (hv : validate s.params i (latchOperands (opcode i) s) = none)
    (hr : commandResult i (latchOperands (opcode i) s) = .ok ⟨encodeText x, []⟩) (hn : x.length = n) :
    ∃ t, exec i s = .next t ∧ WritesText s t x n := by
  subst hn
  have hp := h.inv.params_legal
  have hfit : x.length ≤ outMax s.params := by
    have hbits := (commandResult_ok_bounds hp hv (Memory.length_readRange _ _ _) hr).1
    rw [length_encodeText] at hbits
    omega
  obtain ⟨htext, hlen, hbits, hzero⟩ := completeOk_text hp (recs := []) hfit
  exact ⟨_, exec_ok h.ne_nop (latches_of_inProgress h) hv hr, completeOk_doneFrom s _, completeOk_keepsInputs hp _,
    hlen, hbits, rfl, htext, hzero, completeOk_traceZero hp _⟩

theorem encodeResult_latchOperands {s : State} (op : BitVec 4) (h : s.textLen.toNat ≤ s.params.nMax) :
    encodeResult (latchOperands op s) = .ok ⟨encodeText s.inputText, []⟩ := by
  rw [encodeResult, latchOperands_text op h]

/-- Where BIT_LEN is `n` whole bytes, DECODE's result is the first `n` bytes of TEXT_IN (41_codec.md R127). -/
theorem decodeResult_latchOperands {s : State} (op : BitVec 4) {n : Nat} (hn : s.bitLen.toNat = 8 * n)
    (h : 8 * n ≤ 8 * s.params.nMax) :
    decodeResult (latchOperands op s) = .ok ⟨encodeText (s.mem.readRange textInBase n), []⟩ := by
  simp only [decodeResult, latchOperands, hn]
  rw [decodeBits_ok (by rw [length_bitsOf, Nat.mul_mod_right]), bitsOf_readRange_bytes _ _ _ _ h]

/-- Settles O15: a legal TEXT_LEN is all ENCODE checks (`validate_pass`), and its result is the input text
(`encodeResult_latchOperands`), which it writes (`exec_writesText`). -/
theorem encodeWritesInputText : Obligations.EncodeWritesInputText := by
  unfold Obligations.EncodeWritesInputText
  intro s h hlen
  have hv : validate s.params .encode (latchOperands (opcode .encode) s) = none :=
    validate_pass rfl nofun nofun (fun _ => hlen) nofun nofun
  exact exec_writesText h hv (encodeResult_latchOperands _ hlen.2) (Memory.length_readRange _ _ _)

/-- Settles O16: a legal BIT_LEN of whole bytes is all DECODE checks (`validate_pass`), and its result is those bytes
of TEXT_IN (`decodeResult_latchOperands`), which it writes (`exec_writesText`). -/
theorem decodeWritesBytesOfBits : Obligations.DecodeWritesBytesOfBits := by
  unfold Obligations.DecodeWritesBytesOfBits
  intro s h hlen h8
  have hv : validate s.params .decode (latchOperands (opcode .decode) s) = none :=
    validate_pass rfl nofun nofun nofun (fun _ => hlen) fun _ => h8
  obtain ⟨n, hn⟩ := Nat.dvd_of_mod_eq_zero h8
  rw [hn, Nat.mul_div_cancel_left n (by decide)]
  exact exec_writesText h hv (decodeResult_latchOperands _ hn (hn ▸ hlen.2)) (Memory.length_readRange _ _ _)

end Sys2Proof.Machine
end

section
/-! PROOFS of the statements on the round keys (42_round_key.md). -/

namespace Sys2Proof.Machine

/-! A round key is the rotated key and then the numeral of its round. -/

@[simp] theorem rotate_zero (k : Text) : rotate k 0 = k := by
  rw [rotate, List.drop_zero, List.take_zero, List.append_nil]

@[simp] theorem length_deriveKey (k : Text) (r : Nat) :
    (deriveKey k r).length = k.length + (decimal r).length := by
  rw [deriveKey, List.length_append, length_rotate]

@[simp] theorem take_deriveKey (k : Text) (r : Nat) : (deriveKey k r).take k.length = rotate k (r % k.length) :=
  List.take_left' (length_rotate k _)

@[simp] theorem drop_deriveKey (k : Text) (r : Nat) : (deriveKey k r).drop k.length = decimal r :=
  List.drop_left' (length_rotate k _)

theorem deriveKey_of_mod_eq_zero {k : Text} {r : Nat} (h : r % k.length = 0) : deriveKey k r = k ++ decimal r := by
  rw [deriveKey, h, rotate_zero]

/-- Byte `i` of the rotated part is the key's byte at `i + r` modulo the key's length (42_round_key.md R140, R142). -/
theorem getD_deriveKey_rotated {k : Text} {i : Nat} (r : Nat) (hi : i < k.length) :
    (deriveKey k r).getD i 0#8 = k.getD ((i + r) % k.length) 0#8 := by
  have hmod : r % k.length < k.length := Nat.mod_lt _ (Nat.zero_lt_of_lt hi)
  rw [deriveKey, List.getD_append _ _ _ _ (by rwa [length_rotate]), getD_rotate k _ i hmod hi, Nat.add_mod_mod]

theorem getD_deriveKey_numeral (k : Text) (r j : Nat) :
    (deriveKey k r).getD (k.length + j) 0#8 = (decimal r).getD j 0#8 := by
  rw [← drop_deriveKey k r, List.getD_eq_getElem?_getD, List.getD_eq_getElem?_getD, List.getElem?_drop]

/-! The numeral determines its round. -/

theorem numeralValue_decimal (r : Nat) : numeralValue (decimal r) = r :=
  numeralValue_decimalFrom (r + 1) r (Nat.lt_succ_self r)

theorem decimal_injective : Function.Injective decimal :=
  Function.LeftInverse.injective numeralValue_decimal

/-- Settles O27: the rotated parts are equally long, so the lengths differ where the numerals' lengths do
(`length_deriveKey`), and what follows the rotated parts differs because a numeral determines its round
(`decimal_injective`). -/
theorem roundKeysAreDistinct : Obligations.RoundKeysAreDistinct := by
  unfold Obligations.RoundKeysAreDistinct
  intro k r1 r2 _ hr
  have hdrop : (deriveKey k r1).drop k.length ≠ (deriveKey k r2).drop k.length := by
    rw [drop_deriveKey, drop_deriveKey]
    exact decimal_injective.ne hr
  refine ⟨fun heq => hdrop (by rw [heq]), fun hlen => ?_, fun _ => hdrop⟩
  rw [length_deriveKey, length_deriveKey]
  exact fun heq => hlen (Nat.add_left_cancel heq)

/-- Settles O28: the formula is the definition of `deriveKey`, the digits are those of `decimal_digits1`,
`decimal_digits2` and `decimal_digits3`, and the lengths follow from `length_decimal`. -/
theorem deriveFollowsFormula : Obligations.DeriveFollowsFormula := by
  unfold Obligations.DeriveFollowsFormula
  intro k r _ _ hr
  refine ⟨rfl, decimal_digits1, decimal_digits2, fun h => decimal_digits3 h (by omega), ?_, fun hk => ?_⟩
  · rw [length_deriveKey, length_decimal hr]
  · rw [length_deriveKey]
    have hdigits := length_decimal_le r hr
    omega

/-- Settles O29: the rotation amount is the round modulo the key's length, which is 0 for one character and for a
multiple of the length (`deriveKey_of_mod_eq_zero`), and unchanged when a multiple is added (`take_deriveKey`). -/
theorem rotationIsPeriodic : Obligations.RotationIsPeriodic := by
  unfold Obligations.RotationIsPeriodic
  intro k r _
  refine ⟨fun h1 => deriveKey_of_mod_eq_zero (by rw [h1, Nat.mod_one]), fun m => ?_,
    fun m => deriveKey_of_mod_eq_zero (Nat.mul_mod_left m k.length)⟩
  rw [take_deriveKey, take_deriveKey, Nat.add_mul_mod_self_right]

/-! The command. -/

/-- The character of a digit (93_implementation_defined.md G1). -/
theorem toNat_digit {d : Nat} (h : d ≤ 9) : (BitVec.ofNat 8 (0x30 + d)).toNat = 0x30 + d := by
  rw [BitVec.toNat_ofNat]
  omega

/-- Byte by byte, OUT holds the text a command has written (10_state.md R41). -/
theorem WritesText.read_out {s t : State} {x : Text} {n : Nat} (h : WritesText s t x n) {i : Nat} (hi : i < n) :
    t.mem.read (outBase + i) = x.getD i 0#8 := by
  obtain ⟨-, -, hlen, -, -, htext, -, -⟩ := h
  rw [← htext, State.outText, hlen, Memory.getD_readRange _ _ _ _ hi]

theorem State.length_keyText (s : State) : s.keyText.length = s.keyLen.toNat := Memory.length_readRange _ _ _

/-- `t` is `s` after a DERIVE has written its round key (42_round_key.md R145). -/
def WritesRoundKey (s t : State) : Prop :=
  WritesText s t (deriveKey s.keyText s.rounds.toNat) (s.keyLen.toNat + (decimal s.rounds.toNat).length)

theorem deriveResult_latchOperands {s : State} (op : BitVec 4) (h : s.keyLen.toNat ≤ s.params.kMax) :
    deriveResult (latchOperands op s) = .ok ⟨encodeText (deriveKey s.keyText s.rounds.toNat), []⟩ := by
  rw [deriveResult, latchOperands_keyText op h]
  rfl

theorem exec_derive_writesRoundKey {s : State} (h : InProgress .derive s) (hk : keyLenOk s) (hr : roundsOk s) :
    ∃ t, exec .derive s = .next t ∧ WritesRoundKey s t := by
  have hv : validate s.params .derive (latchOperands (opcode .derive) s) = none :=
    validate_pass rfl (fun _ => hk) (fun _ => hr) nofun nofun nofun
  exact exec_writesText h hv (deriveResult_latchOperands _ hk.2) (by rw [length_deriveKey, State.length_keyText])

theorem WritesRoundKey.read_rotated {s t : State} (h : WritesRoundKey s t) {k : Nat} (hk : k < s.keyLen.toNat) :
    t.mem.read (outBase + k) = s.mem.read (keyBase + (k + s.rounds.toNat) % s.keyLen.toNat) := by
  have hmod : (k + s.rounds.toNat) % s.keyLen.toNat < s.keyLen.toNat := Nat.mod_lt _ (Nat.zero_lt_of_lt hk)
  rw [WritesText.read_out h (Nat.lt_add_right _ hk), getD_deriveKey_rotated _ (by rwa [State.length_keyText]),
    State.length_keyText, State.keyText, Memory.getD_readRange _ _ _ _ hmod]

theorem WritesRoundKey.read_digit {s t : State} (h : WritesRoundKey s t) {j d : Nat}
    (hj : (decimal s.rounds.toNat)[j]? = some (BitVec.ofNat 8 (0x30 + d))) (hd : d ≤ 9) :
    (t.mem.read (outBase + s.keyLen.toNat + j)).toNat = 0x30 + d := by
  obtain ⟨hlt, -⟩ := List.getElem?_eq_some_iff.1 hj
  have hbyte := WritesText.read_out h (Nat.add_lt_add_left hlt _)
  rw [← State.length_keyText, getD_deriveKey_numeral, List.getD_eq_getElem?_getD, hj, Option.getD_some] at hbyte
  rw [Nat.add_assoc, ← State.length_keyText, hbyte, toNat_digit hd]

/-- Settles O17: DERIVE writes the round key (`exec_derive_writesRoundKey`), whose bytes are those of the rotated key
(`WritesRoundKey.read_rotated`) and then the digits of the numeral (`WritesRoundKey.read_digit`), one, two or three by
the round. -/
theorem deriveWritesRoundKey : Obligations.DeriveWritesRoundKey := by
  unfold Obligations.DeriveWritesRoundKey
  intro s h hk hr n r
  have hr255 : r ≤ 255 := Nat.le_of_lt_succ s.rounds.isLt
  obtain ⟨t, ht, hw⟩ := exec_derive_writesRoundKey h hk hr
  have ⟨hdone, hkeeps, hlen, hbits, hcount, _, hzero, htrace⟩ := hw
  refine ⟨t, ht, hdone, hkeeps, hcount, by rw [hbits, hlen], fun _ => hw.read_rotated, fun h9 => ?_,
    fun h10 h99 => ?_, fun h100 => ?_, hlen ▸ hzero, htrace⟩
  · have hdigits := decimal_digits1 h9
    exact ⟨by rw [hlen, hdigits]; rfl, hw.read_digit (j := 0) (by rw [hdigits]; rfl) h9⟩
  · have hdigits := decimal_digits2 h10 h99
    exact ⟨by rw [hlen, hdigits]; rfl, hw.read_digit (j := 0) (by rw [hdigits]; rfl) (by omega),
      hw.read_digit (j := 1) (by rw [hdigits]; rfl) (by omega)⟩
  · have hdigits := decimal_digits3 h100 (by omega)
    exact ⟨by rw [hlen, hdigits]; rfl, hw.read_digit (j := 0) (by rw [hdigits]; rfl) (by omega),
      hw.read_digit (j := 1) (by rw [hdigits]; rfl) (by omega),
      hw.read_digit (j := 2) (by rw [hdigits]; rfl) (by omega)⟩

end Sys2Proof.Machine
end

section
/-! PROOFS of the statements on the mixer (43_mix.md). -/

namespace Sys2Proof.Machine

/-! The function `mix`. -/

theorem keyStream_add_period (kt : Text) (i : Nat) : keyStream kt (i + 8 * kt.length) = keyStream kt i := by
  have hparity : (i + 8 * kt.length) % 2 = i % 2 := by omega
  rw [keyStream, keyStream, Nat.add_mod_right, hparity]

/-- The second exclusive or with the same key stream takes the first one back (43_mix.md R161). -/
theorem mixBits_mixBits (x : BitString) (kt : Text) : mixBits (mixBits x kt) kt = x := by
  apply bits_ext (by rw [length_mixBits, length_mixBits])
  intro i hi
  rw [length_mixBits] at hi
  rw [getD_mixBits _ _ _ hi, getD_mixBits _ _ _ (by rwa [length_mixBits] at hi), Bool.xor_assoc, Bool.xor_self,
    Bool.xor_false]

/-- Under one key text the two key streams cancel (43_mix.md R161). -/
theorem xorBits_mixBits {x y : BitString} (kt : Text) (h : x.length = y.length) :
    xorBits (mixBits x kt) (mixBits y kt) = xorBits x y := by
  have hmix : (mixBits x kt).length = (mixBits y kt).length := by rw [length_mixBits, length_mixBits, h]
  apply bits_ext (by rw [length_xorBits _ _ hmix, length_xorBits _ _ h, length_mixBits])
  intro i hi
  rw [length_xorBits _ _ hmix, length_mixBits] at hi
  rw [getD_xorBits _ _ hmix, getD_xorBits _ _ h, getD_mixBits _ _ _ hi, getD_mixBits _ _ _ (h ▸ hi),
    Bool.xor_comm (y.getD i false), Bool.xor_assoc, ← Bool.xor_assoc (keyStream kt i), Bool.xor_self, Bool.false_xor]

/-- Settles O30: the key stream is `keyStream`, periodic by `keyStream_add_period`; applied twice it is its own inverse
(`mixBits_mixBits`), and it cancels between two inputs (`xorBits_mixBits`). -/
theorem mixIsAKeyStreamXor : Obligations.MixIsAKeyStreamXor := by
  unfold Obligations.MixIsAKeyStreamXor
  intro x y kt _ hlen
  exact ⟨length_mixBits x kt, ⟨keyStream kt, fun _ => rfl, keyStream_add_period kt, getD_mixBits x kt⟩,
    mixBits_mixBits x kt, xorBits_mixBits kt hlen⟩

/-! The command. -/

/-- Bit by bit, OUT holds the result of a successful completion, and 0 after it (40_command_lifecycle.md R106). -/
theorem completeOk_outBit {s : State} (hp : s.params.legal = true) (r : Result) {i : Nat}
    (hi : i < 8 * outMax s.params) :
    ((completeOk r s).mem.read (outBase + i / 8)).getLsbD (7 - i % 8) = r.bits.getD i false := by
  rw [completeOk_read_out hp r (by omega), packBits_pad]

/-- The BitString a MIX in `s` writes: the first BIT_LEN bits of TEXT_IN, mixed with the key text (43_mix.md R162). -/
def State.mixedBits (s : State) : BitString :=
  mixBits (bitsOf (s.mem.readRange textInBase s.params.nMax) s.bitLen.toNat) s.keyText

@[simp] theorem State.length_mixedBits (s : State) : s.mixedBits.length = s.bitLen.toNat := by
  rw [State.mixedBits, length_mixBits, length_bitsOf]

theorem mixResult_latchOperands {s : State} (op : BitVec 4) (h : s.keyLen.toNat ≤ s.params.kMax) :
    mixResult (latchOperands op s) = .ok ⟨s.mixedBits, []⟩ := by
  rw [mixResult, latchOperands_keyText op h]
  rfl

/-- A bit of the key text is that bit of KEY (10_state.md R40). -/
theorem State.getD_encodeText_keyText (s : State) {j : Nat} (hj : j < 8 * s.keyLen.toNat) :
    (encodeText s.keyText).getD j false = (s.mem.read (keyBase + j / 8)).getLsbD (7 - j % 8) := by
  rw [getD_encodeText, State.keyText, Memory.getD_readRange _ _ _ _ (by omega)]

/-- Bit `i` of MIX's result, from memory (43_mix.md R160). -/
theorem State.getD_mixedBits {s : State} (hk : keyLenOk s) (hb : bitLenOk s) {i : Nat} (hi : i < s.bitLen.toNat) :
    s.mixedBits.getD i false = xor (xor ((s.mem.read (textInBase + i / 8)).getLsbD (7 - i % 8))
      ((s.mem.read (keyBase + i % (8 * s.keyLen.toNat) / 8)).getLsbD (7 - i % (8 * s.keyLen.toNat) % 8)))
      (decide (i % 2 = 1)) := by
  obtain ⟨hkey, -⟩ := hk
  obtain ⟨-, hbits⟩ := hb
  have hmod : i % (8 * s.keyLen.toNat) < 8 * s.keyLen.toNat := Nat.mod_lt _ (by omega)
  rw [State.mixedBits, getD_mixBits _ _ _ (by rwa [length_bitsOf]), getD_bitsOf _ _ _ hi,
    Memory.getD_readRange _ _ _ _ (by omega), keyStream, State.length_keyText, State.getD_encodeText_keyText s hmod,
    Bool.xor_assoc]

/-- Settles O18: a legal KEY_LEN and BIT_LEN are all MIX checks (`validate_pass`), so it completes with its result
(`mixResult_latchOperands`). That fits OUT and is written there (`completionWritesOutputs`), its bits are those of
`State.getD_mixedBits`, and 0 follows them (`completeOk_outBit`). -/
theorem mixWritesMixedBits : Obligations.MixWritesMixedBits := by
  unfold Obligations.MixWritesMixedBits
  intro s h hk hb
  have hp := h.inv.params_legal
  have hv : validate s.params .mix (latchOperands (opcode .mix) s) = none :=
    validate_pass rfl (fun _ => hk) nofun nofun (fun _ => hb) nofun
  have hr : commandResult .mix (latchOperands (opcode .mix) s) = .ok ⟨s.mixedBits, []⟩ :=
    mixResult_latchOperands _ hk.2
  have hfit : s.mixedBits.length ≤ 8 * outMax s.params :=
    (commandResult_ok_bounds hp hv (Memory.length_readRange _ _ _) hr).1
  obtain ⟨-, hbits, hlen, -, -, htrace, hdone, hkeeps⟩ :=
    completionWritesOutputs s ⟨s.mixedBits, []⟩ hp hfit (Nat.zero_le _) nofun
  rw [State.length_mixedBits] at hfit hbits hlen
  refine ⟨_, exec_ok h.ne_nop (latches_of_inProgress h) hv hr, hdone, hkeeps, rfl, hbits, hlen, fun i hi => ?_,
    fun i hi hout => ?_, htrace⟩
  · rw [completeOk_outBit hp _ (Nat.lt_of_lt_of_le hi hfit), State.getD_mixedBits hk hb hi]
  · rw [completeOk_outBit hp _ hout, List.getD_eq_default _ _ (by rwa [State.length_mixedBits])]

end Sys2Proof.Machine
end

section
/-! PROOFS of the statements on the Feistel engine (44_engine.md). -/

namespace Sys2Proof.Machine

/-! The blocks: how an input text is split, and what the schedules make of it. -/

/-- An encoding is a whole number of bytes, so the pad of 44_engine.md R180 never fires. -/
theorem padBits_encodeText (t : Text) : padBits (encodeText t) = encodeText t := by
  rw [padBits, if_neg (by rw [length_encodeText]; omega)]

/-- A cut inside character `m` leaves the characters before it and the first bits of its own. -/
theorem take_encodeText {t : Text} {m j : Nat} (hm : m < t.length) (hj : j ≤ 8) :
    (encodeText t).take (8 * m + j) = encodeText (t.take m) ++ (bits8 (t.getD m 0)).take j := by
  have hlen : (encodeText (t.take m)).length = 8 * m := by
    rw [length_encodeText, List.length_take_of_le (Nat.le_of_lt hm)]
  have hsplit : encodeText t = encodeText (t.take m) ++ (bits8 (t.getD m 0) ++ encodeText (t.drop (m + 1))) := by
    rw [List.getD_eq_getElem _ _ hm, ← encodeText_cons, ← encodeText_append, List.getElem_cons_drop,
      List.take_append_drop]
  rw [hsplit, ← hlen, List.take_length_add_append, List.take_append_of_le_length (by rwa [length_bits8])]

/-- Settles O33: both schedules keep the halves of `formBlock` equal (`encBlock_halves`, `decBlock_halves`), and for
`2 m + 1` characters the midpoint is bit 4 of character `m` (`take_encodeText`). -/
theorem halvesStayEqual : Obligations.HalvesStayEqual := by
  unfold Obligations.HalvesStayEqual
  intro t k n
  refine ⟨padBits_encodeText t, encBlock_halves (formBlock_halves t), decBlock_halves (formBlock_halves t),
    fun hodd => ⟨by omega, ?_⟩⟩
  have hmid : 4 * t.length = 8 * ((t.length - 1) / 2) + 4 := by omega
  rw [(formBlock_eq t).1, hmid]
  exact take_encodeText (by omega) (by omega)

/-- A block of two halves of `4 m` bits is the encoding of a text of `m` characters. -/
theorem Block.Halves.encodeText_packBits {b : Block} {m : Nat} (hb : b.Halves (4 * m)) :
    encodeText (packBits b.bits) = b.bits :=
  Machine.encodeText_packBits (by rw [hb.length_bits]; omega)

/-- The half a round computes is the exclusive or of one half with the mix of the other, bit by bit. -/
theorem getD_xorBits_mixBits {x y : BitString} (kt : Text) (h : x.length = y.length) (i : Nat) :
    (xorBits x (mixBits y kt)).getD i false = xor (x.getD i false) ((mixBits y kt).getD i false) :=
  getD_xorBits _ _ (by rw [length_mixBits, h]) i

/-- Settles O23: the halves are those of `encBlock`, whose recurrence is the statement's with its exclusive or bit by
bit (`getD_xorBits_mixBits`). -/
theorem encryptCoreIsTheRoundRecurrence : Obligations.EncryptCoreIsTheRoundRecurrence := by
  unfold Obligations.EncryptCoreIsTheRoundRecurrence
  intro p k n
  have hhalves := encBlock_halves (k := k) (formBlock_halves p)
  refine ⟨_, fun r => (encBlock k (formBlock p) r).left, fun r => (encBlock k (formBlock p) r).right,
    encryptCore_ok p k n, bits_formBlock p, hhalves, fun r => ⟨rfl, fun i _ => ?_⟩, (hhalves n).encodeText_packBits⟩
  obtain ⟨hleft, hright⟩ := hhalves r
  exact getD_xorBits_mixBits _ (hleft.trans hright.symm) i

/-- Settles O24: the halves are those of `decBlock`, whose recurrence is the statement's with its exclusive or bit by
bit (`getD_xorBits_mixBits`). -/
theorem decryptCoreIsTheStepRecurrence : Obligations.DecryptCoreIsTheStepRecurrence := by
  unfold Obligations.DecryptCoreIsTheStepRecurrence
  intro c k n
  have hhalves := decBlock_halves (k := k) (n := n) (formBlock_halves c)
  refine ⟨_, fun j => (decBlock k n (formBlock c) j).left, fun j => (decBlock k n (formBlock c) j).right,
    decryptCore_ok c k n, bits_formBlock c, hhalves, fun j => ⟨rfl, fun i _ => ?_⟩, (hhalves n).encodeText_packBits⟩
  obtain ⟨hleft, hright⟩ := hhalves j
  exact getD_xorBits_mixBits _ (hright.trans hleft.symm) i

/-- The text an encryption answers forms the last block again, and the decrypt steps take that block back to the
first (44_engine.md R187). -/
theorem decryptCore_of_encryptCore {t k c : Text} {n : Nat} (h : encryptCore t k n = .ok c) :
    decryptCore c k n = .ok t := by
  obtain rfl := Except.ok.inj ((encryptCore_ok t k n).symm.trans h)
  have hblock := formBlock_packBits (encBlock_halves (k := k) (formBlock_halves t) n)
  have hundo := decBlock_encBlock k n _ (formBlock t) (formBlock_halves t) n (Nat.le_refl n)
  rw [decryptCore_ok, hblock, hundo, Nat.sub_self, encBlock, packBits_formBlock]

theorem encryptCore_of_decryptCore {t k p : Text} {n : Nat} (h : decryptCore t k n = .ok p) :
    encryptCore p k n = .ok t := by
  obtain rfl := Except.ok.inj ((decryptCore_ok t k n).symm.trans h)
  have hblock := formBlock_packBits (decBlock_halves (k := k) (n := n) (formBlock_halves t) n)
  have hundo := encBlock_decBlock k n _ (formBlock t) (formBlock_halves t) n (Nat.le_refl n)
  rw [encryptCore_ok, hblock, hundo, Nat.sub_self, decBlock, packBits_formBlock]

/-- Settles O25: neither function fails, each undoes the other (`decryptCore_of_encryptCore`,
`encryptCore_of_decryptCore`), and step by step the inversion is `decBlock_encBlock`. -/
theorem decryptUndoesEncrypt : Obligations.DecryptUndoesEncrypt := by
  unfold Obligations.DecryptUndoesEncrypt
  intro t k n _ _ _
  have henc := encryptCore_ok t k n
  have hdec := decryptCore_ok t k n
  exact ⟨⟨_, henc, decryptCore_of_encryptCore henc⟩, ⟨_, hdec, encryptCore_of_decryptCore hdec⟩,
    decBlock_encBlock k n _ (formBlock t) (formBlock_halves t)⟩

theorem length_of_encryptCore {p k c : Text} {n : Nat} (h : encryptCore p k n = .ok c) : c.length = p.length := by
  obtain rfl := Except.ok.inj ((encryptCore_ok p k n).symm.trans h)
  rw [length_packBits, (encBlock_halves (formBlock_halves p) n).length_bits]
  omega

theorem length_of_decryptCore {c k p : Text} {n : Nat} (h : decryptCore c k n = .ok p) : p.length = c.length :=
  (length_of_encryptCore (encryptCore_of_decryptCore h)).symm

/-! The records of a trace fit their slots. -/

theorem conversionRecord_fits {t : Text} (ht : t.length ≤ 255) : RecordFits (conversionRecord t) :=
  have hblock : (encodeText t).length ≤ 2048 := (length_encodeText t).trans_le (by omega)
  ⟨Nat.zero_le _, Nat.zero_le _, Nat.zero_le _, Nat.zero_le _, Nat.zero_le _, Nat.zero_le _, Nat.zero_le _,
    Nat.zero_le _, Nat.zero_le _, hblock⟩

theorem Block.Halves.length_bits_le {b : Block} {h : Nat} (hb : b.Halves h) (hh : h ≤ 1024) :
    b.bits.length ≤ 2048 :=
  hb.length_bits.trans_le (Nat.mul_le_mul_left 2 hh)

theorem finalRecord_fits {b : Block} {h : Nat} (hb : b.Halves h) (hh : h ≤ 1024) : RecordFits (finalRecord b) :=
  have ⟨hleft, hright⟩ := hb
  ⟨Nat.zero_le _, Nat.zero_le _, Nat.zero_le _, hleft.trans_le hh, Nat.zero_le _, Nat.zero_le _, Nat.zero_le _,
    hleft.trans_le hh, hright.trans_le hh, hb.length_bits_le hh⟩

/-- A SPLIT record has the fields of a FINAL record (44_engine.md R190, R193). -/
theorem splitRecord_fits {b : Block} {h : Nat} (hb : b.Halves h) (hh : h ≤ 1024) : RecordFits (splitRecord b) :=
  finalRecord_fits hb hh

theorem roundRecord_fits {ρ : Round} {h : Nat} (hnumber : ρ.number ≤ 255) (hindex : ρ.keyIndex ≤ 255)
    (hkey : ρ.subkey.length ≤ 255) (hf : ρ.f.length = h) (hpre : ρ.pre.Halves h) (hpost : ρ.post.Halves h)
    (hh : h ≤ 1024) : RecordFits (roundRecord ρ) :=
  have ⟨hpreL, hpreR⟩ := hpre
  have ⟨hpostL, hpostR⟩ := hpost
  ⟨hnumber, hindex, hkey, hpostL.trans_le hh, hf.trans_le hh, hpreL.trans_le hh, hpreR.trans_le hh,
    hpostL.trans_le hh, hpostR.trans_le hh, hpost.length_bits_le hh⟩

/-- Of a key and a round in range, the round key fits its record field (20_memory.md R58). -/
theorem length_deriveKey_le {k : Text} {r : Nat} (hk : k.length ≤ 252) (hr : r ≤ 255) :
    (deriveKey k r).length ≤ 255 := by
  have hdigits := length_decimal_le r hr
  rw [length_deriveKey]
  omega

theorem encRound_fits {k : Text} {r h : Nat} {b : Block} (hk : k.length ≤ 252) (hr : r ≤ 255) (hb : b.Halves h)
    (hh : h ≤ 1024) : RecordFits (roundRecord (encRound k r b)) :=
  roundRecord_fits hr hr (length_deriveKey_le hk hr) ((length_mixBits _ _).trans hb.2) hb (encRound_halves hb) hh

theorem decRound_fits {k : Text} {j r h : Nat} {b : Block} (hk : k.length ≤ 252) (hj : j ≤ 255) (hr : r ≤ 255)
    (hb : b.Halves h) (hh : h ≤ 1024) : RecordFits (roundRecord (decRound k j r b)) :=
  roundRecord_fits hj hr (length_deriveKey_le hk hr) ((length_mixBits _ _).trans hb.1) hb (decRound_halves hb) hh

/-- The records of a trace fit where those of its rounds do. -/
theorem traceOf_fits {t : Text} {n : Nat} {round : Nat → Round} {last : Block} (ht : t.length ≤ 255)
    (hround : ∀ i, i < n → RecordFits (roundRecord (round i))) (hlast : last.Halves (4 * t.length)) :
    ∀ rec ∈ traceOf t ((List.range n).map round) last, RecordFits rec := by
  intro rec hrec
  simp only [traceOf, List.map_map, List.mem_cons, List.mem_append, List.mem_map, List.mem_range,
    List.not_mem_nil, or_false] at hrec
  rcases hrec with rfl | rfl | ⟨i, hi, rfl⟩ | rfl
  · exact conversionRecord_fits ht
  · exact splitRecord_fits (formBlock_halves t) (by omega)
  · exact hround i hi
  · exact finalRecord_fits hlast (by omega)

theorem encryptTrace_fits {p k : Text} {n : Nat} (hp : p.length ≤ 255) (hk : k.length ≤ 252) (hn : n ≤ 255) :
    ∀ rec ∈ encryptTrace p k n, RecordFits rec :=
  have hhalves := encBlock_halves (formBlock_halves p)
  traceOf_fits hp (fun i _ => encRound_fits hk (by omega) (hhalves i) (by omega)) (hhalves n)

theorem decryptTrace_fits {c k : Text} {n : Nat} (hc : c.length ≤ 255) (hk : k.length ≤ 252) (hn : n ≤ 255) :
    ∀ rec ∈ decryptTrace c k n, RecordFits rec :=
  have hhalves := decBlock_halves (formBlock_halves c)
  traceOf_fits hc (fun i _ => decRound_fits hk (by omega) (by omega) (hhalves i) (by omega)) (hhalves n)

/-! The commands: what a run of the engine writes. -/

/-- `t` is `s` after a successful command whose result is the text `x` with the trace `records`
(40_command_lifecycle.md R106). -/
structure WritesTrace (s t : State) (x : Text) (records : List TraceRecord) : Prop where
  done : DoneFrom s t
  keeps : KeepsInputs s t
  outText : t.outText = x
  outLen : t.outLen.toNat = x.length
  outBits : t.outBits.toNat = 8 * x.length
  outZero : OutZeroFrom t x.length
  traceCount : t.traceCount.toNat = records.length
  slot : ∀ j rec, records[j]? = some rec → SlotHolds t j rec
  traceZero : TraceZeroFrom t records.length

/-- A command in progress whose operands pass validation writes its result, where that is a text and a trace whose
records fit. -/
theorem exec_writesTrace {i : Instr} {s : State} {x : Text} {records : List TraceRecord} (h : InProgress i s)
    (hv : validate s.params i (latchOperands (opcode i) s) = none)
    (hr : commandResult i (latchOperands (opcode i) s) = .ok ⟨encodeText x, records⟩)
    (hfits : ∀ rec ∈ records, RecordFits rec) : ∃ t, exec i s = .next t ∧ WritesTrace s t x records := by
  have hp := h.inv.params_legal
  obtain ⟨hbits, -, hrecords⟩ := commandResult_ok_bounds hp hv (Memory.length_readRange _ _ _) hr
  obtain ⟨-, -, -, hcount, hslot, htrace, hdone, hkeeps⟩ :=
    completionWritesOutputs s ⟨encodeText x, records⟩ hp hbits hrecords hfits
  have hx : x.length ≤ outMax s.params := by
    rw [length_encodeText] at hbits
    omega
  obtain ⟨htext, hlen, hbits', hzero⟩ := completeOk_text hp (recs := records) hx
  exact ⟨_, exec_ok h.ne_nop (latches_of_inProgress h) hv hr, hdone, hkeeps, htext, hlen, hbits', hzero, hcount,
    hslot, htrace⟩

theorem State.length_inputText (s : State) : s.inputText.length = s.textLen.toNat := Memory.length_readRange _ _ _

theorem State.formBlock_inputText (s : State) : formBlock s.inputText =
    { left := (encodeText s.inputText).take (4 * s.textLen.toNat),
      right := (encodeText s.inputText).drop (4 * s.textLen.toNat) } := by
  obtain ⟨hleft, hright⟩ := formBlock_eq s.inputText
  rw [← s.length_inputText, ← hleft, ← hright]

theorem State.formBlock_inputText_halves (s : State) : (formBlock s.inputText).Halves (4 * s.textLen.toNat) :=
  s.length_inputText ▸ formBlock_halves s.inputText

theorem encryptResult_latchOperands {s : State} (op : BitVec 4) (ht : textLenOk s) (hk : keyLenOk s) {c : Text}
    (hc : encryptCore s.inputText s.keyText s.rounds.toNat = .ok c) :
    encryptResult (latchOperands op s) = .ok ⟨encodeText c, encryptTrace s.inputText s.keyText s.rounds.toNat⟩ := by
  have hrounds : (latchOperands op s).rounds = s.rounds := rfl
  rw [encryptResult, latchOperands_text op ht.2, latchOperands_keyText op hk.2, hrounds, hc]

theorem decryptResult_latchOperands {s : State} (op : BitVec 4) (ht : textLenOk s) (hk : keyLenOk s) {p : Text}
    (hc : decryptCore s.inputText s.keyText s.rounds.toNat = .ok p) :
    decryptResult (latchOperands op s) = .ok ⟨encodeText p, decryptTrace s.inputText s.keyText s.rounds.toNat⟩ := by
  have hrounds : (latchOperands op s).rounds = s.rounds := rfl
  rw [decryptResult, latchOperands_text op ht.2, latchOperands_keyText op hk.2, hrounds, hc]

/-- Legal operands of the engine are within the widths of the record fields (00_scope.md R4). -/
theorem engineOperands_le {s : State} (hi : Inv s) (ht : textLenOk s) (hk : keyLenOk s) :
    s.inputText.length ≤ 255 ∧ s.keyText.length ≤ 252 ∧ s.rounds.toNat ≤ 255 := by
  obtain ⟨-, hnMax, -, hkMax, -⟩ := params_legal_iff.1 hi.params_legal
  rw [State.length_inputText, State.length_keyText]
  exact ⟨ht.2.trans hnMax, hk.2.trans hkMax, Nat.le_of_lt_succ s.rounds.isLt⟩

theorem exec_encrypt_writesTrace {s : State} (h : InProgress .encrypt s) (ht : textLenOk s) (hk : keyLenOk s)
    (hr : roundsOk s) : ∃ t c, exec .encrypt s = .next t ∧
      encryptCore s.inputText s.keyText s.rounds.toNat = .ok c ∧
      WritesTrace s t c (encryptTrace s.inputText s.keyText s.rounds.toNat) := by
  have hv : validate s.params .encrypt (latchOperands (opcode .encrypt) s) = none :=
    validate_pass rfl (fun _ => hk) (fun _ => hr) (fun _ => ht) nofun nofun
  obtain ⟨htext, hkey, hrounds⟩ := engineOperands_le h.inv ht hk
  have hcore := encryptCore_ok s.inputText s.keyText s.rounds.toNat
  obtain ⟨t, hexec, hw⟩ := exec_writesTrace h hv (encryptResult_latchOperands _ ht hk hcore)
    (encryptTrace_fits htext hkey hrounds)
  exact ⟨t, _, hexec, hcore, hw⟩

theorem exec_decrypt_writesTrace {s : State} (h : InProgress .decrypt s) (ht : textLenOk s) (hk : keyLenOk s)
    (hr : roundsOk s) : ∃ t p, exec .decrypt s = .next t ∧
      decryptCore s.inputText s.keyText s.rounds.toNat = .ok p ∧
      WritesTrace s t p (decryptTrace s.inputText s.keyText s.rounds.toNat) := by
  have hv : validate s.params .decrypt (latchOperands (opcode .decrypt) s) = none :=
    validate_pass rfl (fun _ => hk) (fun _ => hr) (fun _ => ht) nofun nofun
  obtain ⟨htext, hkey, hrounds⟩ := engineOperands_le h.inv ht hk
  have hcore := decryptCore_ok s.inputText s.keyText s.rounds.toNat
  obtain ⟨t, hexec, hw⟩ := exec_writesTrace h hv (decryptResult_latchOperands _ ht hk hcore)
    (decryptTrace_fits htext hkey hrounds)
  exact ⟨t, _, hexec, hcore, hw⟩

/-- The trace of `n` rounds has `n + 3` records (44_engine.md R188). -/
@[simp] theorem length_traceOf (t : Text) (rounds : List Round) (last : Block) :
    (traceOf t rounds last).length = rounds.length + 3 := by
  simp [traceOf]

@[simp] theorem length_encryptTrace (p k : Text) (n : Nat) : (encryptTrace p k n).length = n + 3 := by
  simp [encryptTrace, encRounds]

@[simp] theorem length_decryptTrace (c k : Text) (n : Nat) : (decryptTrace c k n).length = n + 3 := by
  simp [decryptTrace, decRounds]

/-- Settles O19: ENCRYPT writes the text `encryptCore` answers (`exec_encrypt_writesTrace`), which is as long as the
input text. -/
theorem encryptWritesCiphertext : Obligations.EncryptWritesCiphertext := by
  unfold Obligations.EncryptWritesCiphertext
  intro s h ht hk hr
  obtain ⟨t, c, hexec, hcore, hw⟩ := exec_encrypt_writesTrace h ht hk hr
  have hlen : c.length = s.textLen.toNat := (length_of_encryptCore hcore).trans s.length_inputText
  rw [← hlen]
  exact ⟨t, c, hexec, hw.done, hw.keeps, hcore, hw.outText, hw.outLen, hw.outBits,
    hw.traceCount.trans (length_encryptTrace _ _ _), hw.outZero⟩

/-- Settles O20: DECRYPT writes the text `decryptCore` answers (`exec_decrypt_writesTrace`), which is as long as the
input text. -/
theorem decryptWritesPlaintext : Obligations.DecryptWritesPlaintext := by
  unfold Obligations.DecryptWritesPlaintext
  intro s h ht hk hr
  obtain ⟨t, p, hexec, hcore, hw⟩ := exec_decrypt_writesTrace h ht hk hr
  have hlen : p.length = s.textLen.toNat := (length_of_decryptCore hcore).trans s.length_inputText
  rw [← hlen]
  exact ⟨t, p, hexec, hw.done, hw.keeps, hcore, hw.outText, hw.outLen, hw.outBits,
    hw.traceCount.trans (length_decryptTrace _ _ _), hw.outZero⟩

/-- Settles O26: the ENCRYPT leaves the ciphertext of its input (`encryptWritesCiphertext`), the DECRYPT's operands are
as legal as the ENCRYPT's, and it leaves what `decryptCore` makes of that ciphertext (`decryptWritesPlaintext`), which
is the input again (`decryptCore_of_encryptCore`). -/
theorem decryptCommandRestoresPlaintext : Obligations.DecryptCommandRestoresPlaintext := by
  unfold Obligations.DecryptCommandRestoresPlaintext
  intro s t u hs ht hk hr hexec hu hparams htextLen htext hkeyLen hkey hrounds
  obtain ⟨t', c, hexec', -, -, hcore, hout, hlen, -⟩ := encryptWritesCiphertext s hs ht hk hr
  obtain rfl : t = t' := Host.Outcome.next.inj (hexec.symm.trans hexec')
  have htextLen' : u.textLen.toNat = s.textLen.toNat := by rw [htextLen, hlen]
  obtain ⟨v, p, hv, hdone, -, hcore', hout', hlen', -⟩ := decryptWritesPlaintext u hu
    (by rw [textLenOk, htextLen', hparams]; exact ht) (by rw [keyLenOk, hkeyLen, hparams]; exact hk)
    (by rw [roundsOk, hrounds, hparams]; exact hr)
  rw [htext, hout, hkey, hrounds, decryptCore_of_encryptCore hcore] at hcore'
  exact ⟨v, hv, hdone, hout'.trans (Except.ok.inj hcore').symm, hlen'.trans htextLen'⟩

/-! The commands: their traces, slot by slot. -/

/-- A record's HALF_BITS may be written as any number it equals. -/
theorem SlotHolds.withHalfBits {t : State} {j h : Nat} {r : TraceRecord} (hr : SlotHolds t j r)
    (hh : r.halfBits = h) : SlotHolds t j { r with halfBits := h } := hh ▸ hr

/-- The slots of a trace in the order of 44_engine.md R188: conversion, split, round `i + 1` in slot `i + 2`, final,
and none after it. -/
theorem WritesTrace.slots {s t : State} {x p : Text} {n : Nat} {round : Nat → Round} {last : Block}
    (hw : WritesTrace s t x (traceOf p ((List.range n).map round) last)) :
    SlotHolds t 0 (conversionRecord p) ∧ SlotHolds t 1 (splitRecord (formBlock p)) ∧
      (∀ i, i < n → SlotHolds t (i + 2) (roundRecord (round i))) ∧ SlotHolds t (n + 2) (finalRecord last) ∧
      TraceZeroFrom t (n + 3) := by
  have hlen : ((List.range n).map round).length = n := by rw [List.length_map, List.length_range]
  have hlast := hw.slot _ _ (traceOf_last p _ last)
  have hzero := hw.traceZero
  rw [length_traceOf, hlen] at hzero
  rw [hlen] at hlast
  refine ⟨hw.slot 0 _ rfl, hw.slot 1 _ rfl, fun i hi => hw.slot _ _ ?_, hlast, hzero⟩
  rw [traceOf_round _ _ _ _ (by rwa [hlen]), List.getElem_map, List.getElem_range]

/-- Settles O21: the trace ENCRYPT writes (`exec_encrypt_writesTrace`) is laid out by `WritesTrace.slots`, and both
halves of each of its blocks have HALF_BITS bits (`encBlock_halves`). -/
theorem encryptTraceHoldsEveryRound : Obligations.EncryptTraceHoldsEveryRound := by
  unfold Obligations.EncryptTraceHoldsEveryRound
  intro s hs ht hk hr p k n h b
  have hb : b = encBlock k (formBlock p) := congrArg (encBlock k) s.formBlock_inputText.symm
  have hhalves := encBlock_halves (k := k) s.formBlock_inputText_halves
  obtain ⟨t, c, hexec, -, hw⟩ := exec_encrypt_writesTrace hs ht hk hr
  obtain ⟨hconversion, hsplit, hround, hfinal, hzero⟩ := hw.slots
  rw [hb]
  refine ⟨t, hexec, hw.traceCount.trans (length_encryptTrace _ _ _), hconversion,
    hsplit.withHalfBits (hhalves 0).1, fun r h1 hn => ?_, hfinal.withHalfBits (hhalves _).1, hzero⟩
  obtain ⟨i, rfl⟩ := Nat.exists_eq_add_of_le' h1
  exact (hround i hn).withHalfBits (hhalves (i + 1)).1

/-- Settles O22: the trace DECRYPT writes (`exec_decrypt_writesTrace`) is laid out by `WritesTrace.slots`, and both
halves of each of its blocks have HALF_BITS bits (`decBlock_halves`). -/
theorem decryptTraceHoldsEveryStep : Obligations.DecryptTraceHoldsEveryStep := by
  unfold Obligations.DecryptTraceHoldsEveryStep
  intro s hs ht hk hr c k n h b
  have hb : b = decBlock k n (formBlock c) := congrArg (decBlock k n) s.formBlock_inputText.symm
  have hhalves := decBlock_halves (k := k) (n := n) s.formBlock_inputText_halves
  obtain ⟨t, p, hexec, -, hw⟩ := exec_decrypt_writesTrace hs ht hk hr
  obtain ⟨hconversion, hsplit, hround, hfinal, hzero⟩ := hw.slots
  rw [hb]
  refine ⟨t, hexec, hw.traceCount.trans (length_decryptTrace _ _ _), hconversion,
    hsplit.withHalfBits (hhalves 0).1, fun j h1 hn => ?_, hfinal.withHalfBits (hhalves _).1, hzero⟩
  obtain ⟨i, rfl⟩ := Nat.exists_eq_add_of_le' h1
  exact (hround i hn).withHalfBits (hhalves (i + 1)).1

end Sys2Proof.Machine
end

section
/-! PROOFS of the statements on errors and the platform (60_exceptions.md). -/

namespace Sys2Proof.Machine

/-- When neither agent has an event, the step leaves the whole state as it is. -/
theorem step_of_no_event {s : State} (he : ¬ engineMoves s = true) (hh : s.host = []) : step s = .next s := by
  simp only [step, nextEvent, if_neg he, hostMove, hh]

/-- Settles O45: the engine agent of an idle block does not move (`engineMoves_iff`), so without a host event neither
agent does (`step_of_no_event`). -/
theorem idleBlockWaits : Obligations.IdleBlockWaits := by
  unfold Obligations.IdleBlockWaits
  intro s hb hh
  have he : ¬ engineMoves s = true := fun h => Bool.eq_false_iff.1 hb (engineMoves_iff.1 h).1
  exact step_of_no_event he hh

end Sys2Proof.Machine
end
